-- ==== Sys2Proof/Word.lean ====
section
/-! DEFINITION. The word types of the CORE (spec/00_scope.md rule R8). -/

namespace Sys2Proof

/-- A general register, a timer or a memory byte (R8). -/
abbrev Byte := BitVec 8

/-- The program counter, the index register, a stack slot or an instruction word (R8). -/
abbrev Word := BitVec 16

/-- A 12-bit address field `nnn` (spec/30_encoding.md rule R103). -/
abbrev Addr12 := BitVec 12

/-- A 4-bit instruction field (R103). -/
abbrev Nibble := BitVec 4

/-- A register index 0x0..0xF: the 4-bit fields x and y (spec/10_state.md rule R33). -/
abbrev Reg := Fin 16

end Sys2Proof
end

