-- ==== Sys2Proof/Syntax.lean ====
section
/-! DEFINITION. The instructions: one constructor for each of the 35 rows of spec/opcode_table.json, with the
operands of spec/30_encoding.md rules R104 and R116. Bits an encoding ignores (w[11:8] of CLS and RET, w[3:0] of
SE_REG and SNE_REG; R107, R111) are no operands. -/

namespace Sys2Proof

inductive Instr where
  /-- CLS, 00E0 (R130). -/
  | cls
  /-- RET, 00EE (R141). -/
  | ret
  /-- SYS nnn, 0nnn with a low byte other than E0 and EE (R140). -/
  | sys (nnn : Addr12)
  /-- JP nnn, 1nnn (R142). -/
  | jp (nnn : Addr12)
  /-- CALL nnn, 2nnn (R143). -/
  | call (nnn : Addr12)
  /-- SE Vx, kk, 3xkk (R144). -/
  | seImm (x : Reg) (kk : Byte)
  /-- SNE Vx, kk, 4xkk (R145). -/
  | sneImm (x : Reg) (kk : Byte)
  /-- SE Vx, Vy, 5xyN (R146). -/
  | seReg (x y : Reg)
  /-- LD Vx, kk, 6xkk (R160). -/
  | ldImm (x : Reg) (kk : Byte)
  /-- ADD Vx, kk, 7xkk (R161). -/
  | addImm (x : Reg) (kk : Byte)
  /-- LD Vx, Vy, 8xy0 (R162). -/
  | ldReg (x y : Reg)
  /-- OR Vx, Vy, 8xy1 (R163). -/
  | or (x y : Reg)
  /-- AND Vx, Vy, 8xy2 (R164). -/
  | and (x y : Reg)
  /-- XOR Vx, Vy, 8xy3 (R165). -/
  | xor (x y : Reg)
  /-- ADD Vx, Vy, 8xy4 (R166). -/
  | addReg (x y : Reg)
  /-- SUB Vx, Vy, 8xy5 (R167). -/
  | sub (x y : Reg)
  /-- SHR Vx {, Vy}, 8xy6 (R168). -/
  | shr (x y : Reg)
  /-- SUBN Vx, Vy, 8xy7 (R169). -/
  | subn (x y : Reg)
  /-- SHL Vx {, Vy}, 8xyE (R170). -/
  | shl (x y : Reg)
  /-- SNE Vx, Vy, 9xyN (R147). -/
  | sneReg (x y : Reg)
  /-- LD I, nnn, Annn (R190). -/
  | ldI (nnn : Addr12)
  /-- JP V0, nnn, Bnnn (R148). -/
  | jpV0 (nnn : Addr12)
  /-- RND Vx, kk, Cxkk (R171). -/
  | rnd (x : Reg) (kk : Byte)
  /-- DRW Vx, Vy, n, Dxyn (R131). -/
  | drw (x y : Reg) (n : Nibble)
  /-- SKP Vx, Ex9E (R210). -/
  | skp (x : Reg)
  /-- SKNP Vx, ExA1 (R211). -/
  | sknp (x : Reg)
  /-- LD Vx, DT, Fx07 (R213). -/
  | ldVxDt (x : Reg)
  /-- LD Vx, K, Fx0A (R212). -/
  | ldK (x : Reg)
  /-- LD DT, Vx, Fx15 (R214). -/
  | ldDt (x : Reg)
  /-- LD ST, Vx, Fx18 (R215). -/
  | ldSt (x : Reg)
  /-- ADD I, Vx, Fx1E (R191). -/
  | addI (x : Reg)
  /-- LD F, Vx, Fx29 (R192). -/
  | ldF (x : Reg)
  /-- LD B, Vx, Fx33 (R193). -/
  | ldB (x : Reg)
  /-- LD [I], Vx, Fx55 (R195). -/
  | ldMemI (x : Reg)
  /-- LD Vx, [I], Fx65 (R196). -/
  | ldRegI (x : Reg)
  deriving DecidableEq, Repr

end Sys2Proof
end

