-- ==== Sys2Proof/WellFormed.lean ====
section
/-! DEFINITION. Which instruction terms are well formed. Operand ranges are in the types; the one check left is
that SYS never spells CLS or RET (spec/30_encoding.md rules R107 and R116). -/

namespace Sys2Proof

/-- The low byte `kk` of an address field (R103). -/
def lowByte (nnn : Addr12) : Byte := nnn.extractLsb' 0 8

/-- `SYS nnn` "is rejected by the assembler when nnn's low byte is 0xE0 or 0xEE" (R116). -/
def sysOperandOk (nnn : Addr12) : Bool := lowByte nnn != 0xE0#8 && lowByte nnn != 0xEE#8

def Instr.wellFormed : Instr → Bool
  | .sys nnn => sysOperandOk nnn
  | .cls | .ret | .jp _ | .call _ | .seImm _ _ | .sneImm _ _ | .seReg _ _ | .ldImm _ _ | .addImm _ _ | .ldReg _ _
  | .or _ _ | .and _ _ | .xor _ _ | .addReg _ _ | .sub _ _ | .shr _ _ | .subn _ _ | .shl _ _ | .sneReg _ _
  | .ldI _ | .jpV0 _ | .rnd _ _ | .drw _ _ _ | .skp _ | .sknp _ | .ldVxDt _ | .ldK _ | .ldDt _ | .ldSt _
  | .addI _ | .ldF _ | .ldB _ | .ldMemI _ | .ldRegI _ => true

end Sys2Proof
end

