-- ==== Sys2Proof/Decode.lean ====
section
/-! DEFINITION. The decoder, total on every word and rejecting by name (spec/30_encoding.md rules R102 to R114),
and after it the encoder, written from the same table (R116). -/

namespace Sys2Proof

/-- Why a decoder has no instruction. -/
inductive DecodeError where
  /-- The word is one of the unknown patterns of R112. -/
  | unknownInstruction (w : Word)
  /-- Fewer than the two bytes every instruction takes (R102). -/
  | truncated (have_ : Nat)
  deriving DecidableEq, Repr

/-! The fields of R103. -/

def fieldOp (w : Word) : Nibble := w.extractLsb' 12 4
def fieldX (w : Word) : Reg := (w.extractLsb' 8 4).toFin
def fieldY (w : Word) : Reg := (w.extractLsb' 4 4).toFin
def fieldN (w : Word) : Nibble := w.extractLsb' 0 4
def fieldKk (w : Word) : Byte := w.extractLsb' 0 8
def fieldNnn (w : Word) : Addr12 := w.extractLsb' 0 12

/-- Op 0: on kk, w[11:8] not consulted (R107). -/
def decode0 (w : Word) : Except DecodeError Instr :=
  match (fieldKk w).toNat with
  | 0xE0 => .ok .cls
  | 0xEE => .ok .ret
  | _ => .ok (.sys (fieldNnn w))

/-- Op 8: on n (R108). -/
def decode8 (w : Word) : Except DecodeError Instr :=
  match (fieldN w).toNat with
  | 0x0 => .ok (.ldReg (fieldX w) (fieldY w))
  | 0x1 => .ok (.or (fieldX w) (fieldY w))
  | 0x2 => .ok (.and (fieldX w) (fieldY w))
  | 0x3 => .ok (.xor (fieldX w) (fieldY w))
  | 0x4 => .ok (.addReg (fieldX w) (fieldY w))
  | 0x5 => .ok (.sub (fieldX w) (fieldY w))
  | 0x6 => .ok (.shr (fieldX w) (fieldY w))
  | 0x7 => .ok (.subn (fieldX w) (fieldY w))
  | 0xE => .ok (.shl (fieldX w) (fieldY w))
  | _ => .error (.unknownInstruction w)

/-- Op E: on kk (R109). -/
def decodeE (w : Word) : Except DecodeError Instr :=
  match (fieldKk w).toNat with
  | 0x9E => .ok (.skp (fieldX w))
  | 0xA1 => .ok (.sknp (fieldX w))
  | _ => .error (.unknownInstruction w)

/-- Op F: on kk (R110). -/
def decodeF (w : Word) : Except DecodeError Instr :=
  match (fieldKk w).toNat with
  | 0x07 => .ok (.ldVxDt (fieldX w))
  | 0x0A => .ok (.ldK (fieldX w))
  | 0x15 => .ok (.ldDt (fieldX w))
  | 0x18 => .ok (.ldSt (fieldX w))
  | 0x1E => .ok (.addI (fieldX w))
  | 0x29 => .ok (.ldF (fieldX w))
  | 0x33 => .ok (.ldB (fieldX w))
  | 0x55 => .ok (.ldMemI (fieldX w))
  | 0x65 => .ok (.ldRegI (fieldX w))
  | _ => .error (.unknownInstruction w)

/-- The primary table of R106; op 5 and op 9 do not decode n (R111). -/
def decode (w : Word) : Except DecodeError Instr :=
  match (fieldOp w).toNat with
  | 0x0 => decode0 w
  | 0x1 => .ok (.jp (fieldNnn w))
  | 0x2 => .ok (.call (fieldNnn w))
  | 0x3 => .ok (.seImm (fieldX w) (fieldKk w))
  | 0x4 => .ok (.sneImm (fieldX w) (fieldKk w))
  | 0x5 => .ok (.seReg (fieldX w) (fieldY w))
  | 0x6 => .ok (.ldImm (fieldX w) (fieldKk w))
  | 0x7 => .ok (.addImm (fieldX w) (fieldKk w))
  | 0x8 => decode8 w
  | 0x9 => .ok (.sneReg (fieldX w) (fieldY w))
  | 0xA => .ok (.ldI (fieldNnn w))
  | 0xB => .ok (.jpV0 (fieldNnn w))
  | 0xC => .ok (.rnd (fieldX w) (fieldKk w))
  | 0xD => .ok (.drw (fieldX w) (fieldY w) (fieldN w))
  | 0xE => decodeE w
  | 0xF => decodeF w
  | _ => .error (.unknownInstruction w)

/-- The instruction word of two bytes, the first byte the high one (spec/20_memory.md rule R75). -/
def wordOfBytes (hi lo : Byte) : Word := hi ++ lo

/-- The high and the low byte of an instruction word: the bytes at PC and PC + 1 (R75). -/
def highByteOf (w : Word) : Byte := w.extractLsb' 8 8
def lowByteOf (w : Word) : Byte := w.extractLsb' 0 8

/-- The decoder on bytes: it consumes exactly two (R102) and answers the rest. -/
def decodeBytes : List Byte → Except DecodeError (Instr × List Byte)
  | hi :: lo :: rest =>
    match decode (wordOfBytes hi lo) with
    | .ok i => .ok (i, rest)
    | .error e => .error e
  | [_] => .error (.truncated 1)
  | [] => .error (.truncated 0)

/-! The encoder (R116). -/

/-- The nibble of a register index. -/
def regNibble (r : Reg) : Nibble := BitVec.ofFin r

/-- `op nnn`. -/
def asmNnn (op : Nibble) (nnn : Addr12) : Word := op ++ nnn

/-- `op x kk`. -/
def asmXkk (op : Nibble) (x : Reg) (kk : Byte) : Word := op ++ regNibble x ++ kk

/-- `op x y n`. -/
def asmXyn (op : Nibble) (x y : Reg) (n : Nibble) : Word := op ++ regNibble x ++ regNibble y ++ n

/-- The word of an instruction, ignored bits zero (R116). -/
def encode : Instr → Word
  | .cls => 0x00E0#16
  | .ret => 0x00EE#16
  | .sys nnn => asmNnn 0x0#4 nnn
  | .jp nnn => asmNnn 0x1#4 nnn
  | .call nnn => asmNnn 0x2#4 nnn
  | .seImm x kk => asmXkk 0x3#4 x kk
  | .sneImm x kk => asmXkk 0x4#4 x kk
  | .seReg x y => asmXyn 0x5#4 x y 0x0#4
  | .ldImm x kk => asmXkk 0x6#4 x kk
  | .addImm x kk => asmXkk 0x7#4 x kk
  | .ldReg x y => asmXyn 0x8#4 x y 0x0#4
  | .or x y => asmXyn 0x8#4 x y 0x1#4
  | .and x y => asmXyn 0x8#4 x y 0x2#4
  | .xor x y => asmXyn 0x8#4 x y 0x3#4
  | .addReg x y => asmXyn 0x8#4 x y 0x4#4
  | .sub x y => asmXyn 0x8#4 x y 0x5#4
  | .shr x y => asmXyn 0x8#4 x y 0x6#4
  | .subn x y => asmXyn 0x8#4 x y 0x7#4
  | .shl x y => asmXyn 0x8#4 x y 0xE#4
  | .sneReg x y => asmXyn 0x9#4 x y 0x0#4
  | .ldI nnn => asmNnn 0xA#4 nnn
  | .jpV0 nnn => asmNnn 0xB#4 nnn
  | .rnd x kk => asmXkk 0xC#4 x kk
  | .drw x y n => asmXyn 0xD#4 x y n
  | .skp x => asmXkk 0xE#4 x 0x9E#8
  | .sknp x => asmXkk 0xE#4 x 0xA1#8
  | .ldVxDt x => asmXkk 0xF#4 x 0x07#8
  | .ldK x => asmXkk 0xF#4 x 0x0A#8
  | .ldDt x => asmXkk 0xF#4 x 0x15#8
  | .ldSt x => asmXkk 0xF#4 x 0x18#8
  | .addI x => asmXkk 0xF#4 x 0x1E#8
  | .ldF x => asmXkk 0xF#4 x 0x29#8
  | .ldB x => asmXkk 0xF#4 x 0x33#8
  | .ldMemI x => asmXkk 0xF#4 x 0x55#8
  | .ldRegI x => asmXkk 0xF#4 x 0x65#8

/-- The two bytes of an instruction as they lie in memory, high byte first (R75). -/
def encodeBytes (i : Instr) : List Byte := [highByteOf (encode i), lowByteOf (encode i)]

/-- The word with the bits its row ignores set to zero: w[11:8] of CLS and RET, w[3:0] of 5xyN and 9xyN
(R107, R111, R116). -/
def canonicalWord (w : Word) : Word :=
  if fieldOp w = 0x0#4 ∧ (fieldKk w = 0xE0#8 ∨ fieldKk w = 0xEE#8) then asmXkk 0x0#4 0x0 (fieldKk w)
  else if fieldOp w = 0x5#4 ∨ fieldOp w = 0x9#4 then asmXyn (fieldOp w) (fieldX w) (fieldY w) 0x0#4
  else w

/-- The 16-bit word whose bits are w, bits at and above nbits zero. Every instruction is one word, so the table's
numbering (bit 0 the least significant bit of the first word) is the word's own (R9, R103). -/
def tableWord (nbits w : Nat) : Word := BitVec.ofNat 16 (w % 2 ^ nbits)

/-- What the decoder reads from an instruction with bits w as spec/opcode_table.json numbers them: its two bytes
are laid out high byte first, as memory holds them (R75), and decoded. -/
def decodeTableWord (nbits w : Nat) : Option Instr :=
  match decodeBytes [highByteOf (tableWord nbits w), lowByteOf (tableWord nbits w)] with
  | .ok (i, _) => some i
  | .error _ => none

end Sys2Proof
end

