-- ==== Sys2Proof/Config.lean ====
section
/-! DEFINITION. What an implementation fixes (the parameter record of spec/00_scope.md rule R6) and the free
values (rule R7; spec/60_exceptions.md rule R237). -/

namespace Sys2Proof

/-- `MEM_SIZE` of R6: bytes of memory, fixed by the source. -/
abbrev Config.memSize : Nat := 4096

/-- `STACK_DEPTH` of R6: call-stack slots, fixed by the source. -/
abbrev Config.stackDepth : Nat := 16

/-- `NREGS` and `NKEYS` of R6: general registers and keys, fixed by the source. -/
abbrev Config.numRegs : Nat := 16

/-- `FB_W` of R6: framebuffer columns, fixed by the source. -/
abbrev Config.fbWidth : Nat := 64

/-- `FB_H` of R6: framebuffer rows, fixed by the source. -/
abbrev Config.fbHeight : Nat := 32

/-- The configuration record `Cfg` of R6: the parameters whose values the source does not settle. The defaults
stand in Sys2Proof/Machine/Params.lean (log entries 3 to 10). -/
structure Cfg where
  /-- `LOAD_ADDR`: where `loadProgram` puts a program and where PC points after reset (D1, D2). -/
  loadAddr : Addr12
  /-- `FONT_BASE`: the address of the glyph set (D3). -/
  fontBase : Addr12
  /-- `GLYPHS`: the 80 glyph bytes, 5 a digit, top row first (spec/10_state.md rule R43, D4). -/
  glyphs : Vector Byte 80
  /-- `VF_LAST`: the flag write follows the destination write (spec/42_alu.md rule R172, D15). -/
  vfLast : Bool
  /-- `SHIFT_SRC_VY`: shifts take V[y] as their source (R168, R170, D16). -/
  shiftSrcVy : Bool
  /-- `SHL_FLAG_LSB`: the flag of shift-left is bit 0 of the source (R170, D17). -/
  shlFlagLsb : Bool
  /-- `JUMP_OFFSET_VX`: Bnnn adds V[x] instead of V[0] (spec/41_control_flow.md rule R148, D18). -/
  jumpOffsetVx : Bool
  /-- `INC_I_STORE`: Fx55 advances I (spec/43_index_memory.md rule R195, D19). -/
  incIStore : Bool
  /-- `INC_I_LOAD`: Fx65 advances I (R196, D19). -/
  incILoad : Bool
  deriving DecidableEq, Repr

/-- What spec/20_memory.md rule R78 asks of the parameters: a load never overwrites the glyphs. An odd LOAD_ADDR is
legal: DESIGN CHOICE, the spec calls LOAD_ADDR even (R36, R271) and asks no evenness of the parameter (R6, R78); log
entry 40. -/
def Cfg.wf (c : Cfg) : Bool := decide (c.fontBase.toNat + 80 ≤ c.loadAddr.toNat)

/-! The free values. Each is opaque: nothing can be proved about the value, so a statement holds for every value.
The first argument is the number of the draw (the field `draws` of the state). -/

/-- The random byte of the `k`-th draw (R7; spec/42_alu.md rule R171; log entry 11). -/
opaque Config.randomByte : (k : Nat) → Byte

/-- VF after an AddressOutOfRange in DRW (R237; log entry 13). -/
opaque Config.faultVf : (k : Nat) → Byte

/-- The framebuffer, 32 rows of 64 cells, after an AddressOutOfRange in DRW (R237; log entry 13). -/
opaque Config.faultFb : (k : Nat) → Vector (Vector Bool 64) 32

/-- DIRTY after an AddressOutOfRange in DRW (R237; log entry 13). -/
opaque Config.faultDirty : (k : Nat) → Bool

/-- The byte at address a after an AddressOutOfRange in LD_B or LD_MEM_I (R237; log entry 13). -/
opaque Config.faultMemByte : (k : Nat) → (a : Nat) → Byte

/-- V[r] after an AddressOutOfRange in LD_REG_I (R237; log entry 13). -/
opaque Config.faultReg : (k : Nat) → (r : Reg) → Byte

/-- I after an AddressOutOfRange in LD_MEM_I or LD_REG_I (R237; log entry 13). -/
opaque Config.faultIndex : (k : Nat) → Word

end Sys2Proof
end

