-- ==== Sys2Proof/Machine/Params.lean ====
section
/-! DEFINITION. The default configuration: the values spec/00_scope.md rule R6 takes for the hardware. None of
them is the source's; each is a decision of spec/92_eei_decisions.md (log entries 3 to 10). -/

namespace Sys2Proof.Machine

/-- Digits 0 to 7 of the glyph set (spec/10_state.md rule R43, D4; UNVERIFIED, log entry 5). -/
def glyphsLow : List Byte :=
  [0xF0, 0x90, 0x90, 0x90, 0xF0] ++ [0x20, 0x60, 0x20, 0x20, 0x70] ++
  [0xF0, 0x10, 0xF0, 0x80, 0xF0] ++ [0xF0, 0x10, 0xF0, 0x10, 0xF0] ++
  [0x90, 0x90, 0xF0, 0x10, 0x10] ++ [0xF0, 0x80, 0xF0, 0x10, 0xF0] ++
  [0xF0, 0x80, 0xF0, 0x90, 0xF0] ++ [0xF0, 0x10, 0x20, 0x40, 0x40]

/-- Digits 8 to F of the glyph set (R43, D4; UNVERIFIED, log entry 5). -/
def glyphsHigh : List Byte :=
  [0xF0, 0x90, 0xF0, 0x90, 0xF0] ++ [0xF0, 0x90, 0xF0, 0x10, 0xF0] ++
  [0xF0, 0x90, 0xF0, 0x90, 0x90] ++ [0xE0, 0x90, 0xE0, 0x90, 0xE0] ++
  [0xF0, 0x80, 0x80, 0x80, 0xF0] ++ [0xE0, 0x90, 0x90, 0x90, 0xE0] ++
  [0xF0, 0x80, 0xF0, 0x80, 0xF0] ++ [0xF0, 0x80, 0xF0, 0x80, 0x80]

/-- `GLYPHS` at its default, glyph d at offset 5 d (R43). -/
def defaultGlyphs : Vector Byte 80 := ⟨(glyphsLow ++ glyphsHigh).toArray, rfl⟩

/-- The defaults of R6. -/
def defaultCfg : Cfg where
  loadAddr := 0x200#12
  fontBase := 0x050#12
  glyphs := defaultGlyphs
  vfLast := false
  shiftSrcVy := false
  shlFlagLsb := false
  jumpOffsetVx := false
  incIStore := false
  incILoad := true

end Sys2Proof.Machine
end

