-- ==== Sys2Proof/Machine/State.lean ====
section
/-! DEFINITION. The state of the CORE (spec/10_state.md rule R30), the bookkeeping beside it (R52), the outcome
types, and the state after reset (spec/70_reset_and_hazards.md rule R270). -/

namespace Sys2Proof.Machine

/-- Memory as (address, byte) pairs in canonical form: addresses strictly rising, none above 0xFFF, none listed with
the byte it holds after reset (log entry 30; `Memory.wf` in Ops.lean). -/
abbrev Memory := List Host.Cell

/-- The framebuffer: 32 rows of 64 one-bit cells, FB[x][y] in row y at column x (R46). -/
abbrev Framebuffer := Vector (Vector Bool 64) 32

/-- A `CpuFault` with the info it records (spec/60_exceptions.md rule R230). Taking one is a next state (R231, R240). -/
inductive CpuFault where
  /-- Code 1: an access at an address above 0xFFF (R232). -/
  | addressOutOfRange (a : Nat)
  /-- Code 2: CALL at SP = 16; p is its fetch address (R233). -/
  | stackOverflow (p : Word)
  /-- Code 3: RET at SP = 0; p is its fetch address (R234). -/
  | stackUnderflow (p : Word)
  /-- Code 4: SKP or SKNP with V[x] = v above 15 (R235). -/
  | keyIndexOutOfRange (v : Byte)
  deriving DecidableEq, Repr

/-- The non-fatal diagnostic of a cycle (R236). -/
inductive Diagnostic where
  /-- Code 16: SYS or an unknown pattern; the word and its fetch address. -/
  | unknownInstruction (w p : Word)
  deriving DecidableEq, Repr

/-- An entry of the fault record or the diagnostic log: an outcome, or the marker a reset appends (R52, R272). -/
inductive LogEntry (α : Type) where
  | entry (e : α)
  | resetMarker
  deriving DecidableEq, Repr

/-- Reasons the model itself stops. There is none: a CpuFault is taken as a next state because the CORE "does not
halt by itself" (R231) and rule R237 gives the state it leaves (log entry 1; safe: nothing is proved of a stop). -/
inductive Fault : Type where
  deriving DecidableEq, Repr

/-- Reasons the model refuses. -/
inductive Refusal where
  /-- Raised by an arm of `exec` for an instruction not modelled yet; no arm raises it now. Safe. -/
  | notModelled (mnemonic : String)
  /-- Raised by the host operation setKey for an index outside 0..15: "An index outside that range has no step: the
  model refuses it" (R245). Safe for claims about steps; the host's duty (log entry 26). -/
  | keyIndexNoStep (index : Nat)
  deriving DecidableEq, Repr

/-- The state record of R30, the bookkeeping of R52, and the model's own `cfg` and `draws`. -/
structure State where
  /-- The configuration record (R6): the model's own field, a parameter no step changes (log entry 2). -/
  cfg : Cfg
  /-- MEM (R51). -/
  mem : Memory
  /-- V[0x0..0xF]; VF is V[0xF] (R31, R32). -/
  v : Vector Byte 16
  /-- I (R38). -/
  index : Word
  /-- PC (R34). -/
  pc : Word
  /-- STACK[0..15] (R39). -/
  stack : Vector Word 16
  /-- SP, the depth 0..16 (R39). -/
  sp : Fin 17
  /-- DT (R44). -/
  dt : Byte
  /-- ST (R44). -/
  st : Byte
  /-- KEY[0x0..0xF] (R45). -/
  key : Vector Bool 16
  /-- FB (R46). -/
  fb : Framebuffer
  /-- DIRTY (R47). -/
  dirty : Bool
  /-- BEEP (R48). -/
  beep : Bool
  /-- The fault record, oldest entry first (R52). -/
  faultRecord : List (LogEntry CpuFault)
  /-- The diagnostic log, oldest entry first (R52). -/
  diagLog : List (LogEntry Diagnostic)
  /-- How many free values the run has drawn: the model's own field (log entry 12). -/
  draws : Nat
  deriving DecidableEq, Repr

/-- The state of a fresh machine with configuration c (R55, R270): PC = LOAD_ADDR, memory at its reset contents,
everything else zero or false; the records empty (log entry 29), no free value drawn (log entry 12). -/
def State.initial (c : Cfg) : State where
  cfg := c
  mem := []
  v := Vector.replicate 16 0#8
  index := 0#16
  pc := c.loadAddr.setWidth 16
  stack := Vector.replicate 16 0#16
  sp := 0
  dt := 0#8
  st := 0#8
  key := Vector.replicate 16 false
  fb := Vector.replicate 32 (Vector.replicate 64 false)
  dirty := false
  beep := false
  faultRecord := []
  diagLog := []
  draws := 0

/-- The machine right after reset, at the default configuration (R270, R271). -/
def State.reset : State := State.initial defaultCfg

end Sys2Proof.Machine
end

