-- ==== Sys2Proof/Machine/Ops.lean ====
section
/-! DEFINITION. The named operations over memory, registers, the call stack, the framebuffer and the records; taking
a fault and reporting a diagnostic; the unspecified state after a fault; fetching. -/

namespace Sys2Proof.Machine

/-! Memory as canonical data. -/

/-- What an unlisted address reads as: the reset contents, the glyph set in its region and 0 elsewhere (R51, R270). -/
def resetByte (c : Cfg) (a : Nat) : Byte :=
  if h : c.fontBase.toNat ≤ a ∧ a < c.fontBase.toNat + 80 then c.glyphs[a - c.fontBase.toNat]'(by omega) else 0#8

/-- The byte listed at an address, if any. -/
def Memory.find (a : Nat) : Memory → Option Byte
  | [] => none
  | (b, v) :: rest => if a = b then some v else Memory.find a rest

/-- MEM[a]: the listed byte, or else the reset byte. -/
def Memory.byteAt (c : Cfg) (m : Memory) (a : Nat) : Byte := (Memory.find a m).getD (resetByte c a)

/-- The list without any entry for address a. -/
def Memory.remove (a : Nat) : Memory → Memory
  | [] => []
  | (b, u) :: rest => if a = b then Memory.remove a rest else (b, u) :: Memory.remove a rest

/-- Put an entry before the first one of a higher address. -/
def Memory.insert (a : Nat) (v : Byte) : Memory → Memory
  | [] => [(a, v)]
  | (b, u) :: rest => if a < b then (a, v) :: (b, u) :: rest else (b, u) :: Memory.insert a v rest

/-- Write v at address a, where d is the byte an unlisted a reads as; the canonical form is kept: writing d leaves no
entry for a. -/
def Memory.store (d : Byte) (a : Nat) (v : Byte) (m : Memory) : Memory :=
  if v = d then Memory.remove a m else Memory.insert a v (Memory.remove a m)

/-- Canonical from address lo up: rising addresses in range, none listed with its reset byte. -/
def Memory.wfFrom (c : Cfg) : Nat → Memory → Bool
  | _, [] => true
  | lo, (a, v) :: rest =>
    decide (lo ≤ a) && decide (a < Config.memSize) && (v != resetByte c a) && Memory.wfFrom c (a + 1) rest

/-- Memory is in canonical form. -/
def Memory.wf (c : Cfg) (m : Memory) : Bool := Memory.wfFrom c 0 m

/-! Reads and updates of the state, one for each field. -/

/-- V[r]. -/
def State.getV (s : State) (r : Reg) : Byte := s.v[r.val]

/-- V[r] <- b. No register is hard-wired (R31). -/
def State.setV (s : State) (r : Reg) (b : Byte) : State := { s with v := s.v.set r.val b }

/-- I <- w. -/
def State.setIndex (s : State) (w : Word) : State := { s with index := w }

/-- PC <- w. -/
def State.setPc (s : State) (w : Word) : State := { s with pc := w }

/-- STACK[j]. -/
def State.getSlot (s : State) (j : Fin 16) : Word := s.stack[j.val]

/-- STACK[j] <- w. -/
def State.setSlot (s : State) (j : Fin 16) (w : Word) : State := { s with stack := s.stack.set j.val w }

/-- SP <- d. -/
def State.setSp (s : State) (d : Fin 17) : State := { s with sp := d }

/-- DT <- b. -/
def State.setDt (s : State) (b : Byte) : State := { s with dt := b }

/-- ST <- b. -/
def State.setSt (s : State) (b : Byte) : State := { s with st := b }

/-- KEY[k]. -/
def State.getKey (s : State) (k : Fin 16) : Bool := s.key[k.val]

/-- KEY[k] <- b. -/
def State.setKey (s : State) (k : Fin 16) (b : Bool) : State := { s with key := s.key.set k.val b }

/-- Cell (x, y) of a framebuffer. -/
def cellOf (g : Framebuffer) (x : Fin 64) (y : Fin 32) : Bool := g[y.val][x.val]

/-- The framebuffer with every cell 0. -/
def blankFb : Framebuffer := Vector.replicate 32 (Vector.replicate 64 false)

/-- FB[x][y]. -/
def State.getCell (s : State) (x : Fin 64) (y : Fin 32) : Bool := cellOf s.fb x y

/-- FB[x][y] <- b. -/
def State.setCell (s : State) (x : Fin 64) (y : Fin 32) (b : Bool) : State :=
  { s with fb := s.fb.set y.val (s.fb[y.val].set x.val b) }

/-- All of FB at once. -/
def State.setFb (s : State) (g : Framebuffer) : State := { s with fb := g }

/-- DIRTY <- b. -/
def State.setDirty (s : State) (b : Bool) : State := { s with dirty := b }

/-- BEEP <- b. -/
def State.setBeep (s : State) (b : Bool) : State := { s with beep := b }

/-- MEM[a] as the state holds it, no range check. -/
def State.byteAt (s : State) (a : Nat) : Byte := Memory.byteAt s.cfg s.mem a

/-- MEM[a] <- v, no range check. -/
def State.storeByte (s : State) (a : Nat) (v : Byte) : State :=
  { s with mem := Memory.store (resetByte s.cfg a) a v s.mem }

/-- One more free value drawn. -/
def State.countDraw (s : State) : State := { s with draws := s.draws + 1 }

/-! Memory access (spec/20_memory.md rule R72). Addresses are unbounded naturals, never truncated (R73). -/

/-- `MemRead(a, 1)`. -/
def memRead (s : State) (a : Nat) : Except CpuFault Byte :=
  if a > 0xFFF then .error (.addressOutOfRange a) else .ok (s.byteAt a)

/-- `MemWrite(a, 1, v)`. -/
def memWrite (s : State) (a : Nat) (v : Byte) : Except CpuFault State :=
  if a > 0xFFF then .error (.addressOutOfRange a) else .ok (s.storeByte a v)

/-- Write bytes at ascending addresses from base; the first failing address is the fault (R77, R232). -/
def writeBytes (base : Nat) : List Byte → State → Except CpuFault State
  | [], s => .ok s
  | b :: bs, s =>
    match memWrite s base b with
    | .error f => .error f
    | .ok t => writeBytes (base + 1) bs t

/-! The cycle's outcomes (spec/60_exceptions.md). -/

/-- The fetch address p of the instruction whose handler runs: PC holds p + 2 modulo 2^16 during the handler
(spec/10_state.md rule R34). -/
def fetchAddr (s : State) : Word := s.pc - 2#16

/-- Taking a fault: it is appended to the fault record and the cycle ends (R231). The CORE has no trap entry: no
vector, no saved state (R239), so nothing else changes here. -/
def takeFault (f : CpuFault) (s : State) : State := { s with faultRecord := s.faultRecord ++ [.entry f] }

/-- `report UnknownInstruction(w, p)`: appended to the diagnostic log, not to the fault record (R236). -/
def reportUnknown (w p : Word) (s : State) : State :=
  { s with diagLog := s.diagLog ++ [.entry (.unknownInstruction w p)] }

/-- What a cycle does with a word that decodes to no instruction, PC already advanced (R112, R236). -/
def runUnknown (w : Word) (s : State) : State := reportUnknown w (fetchAddr s) s

/-- The numeric code of a fault (R230, D33). -/
def faultCode : CpuFault → Nat
  | .addressOutOfRange _ => 1
  | .stackOverflow _ => 2
  | .stackUnderflow _ => 3
  | .keyIndexOutOfRange _ => 4

/-- The numeric code of a diagnostic (R230, D33). -/
def diagCode : Diagnostic → Nat
  | .unknownInstruction _ _ => 16

/-! The call stack (spec/10_state.md rules R40 and R41). -/

/-- `push(a)`: StackOverflow with no state written when SP = 16. -/
def push (a : Word) (s : State) : Except CpuFault State :=
  if h : s.sp.val < 16 then
    .ok ((s.setSlot ⟨s.sp.val, h⟩ a).setSp ⟨s.sp.val + 1, by omega⟩)
  else .error (.stackOverflow (fetchAddr s))

/-- `pop()`: StackUnderflow with no state written when SP = 0; the slot keeps its value (D28). -/
def pop (s : State) : Except CpuFault (Word × State) :=
  if h : s.sp.val = 0 then .error (.stackUnderflow (fetchAddr s))
  else .ok (s.getSlot ⟨s.sp.val - 1, by omega⟩, s.setSp ⟨s.sp.val - 1, by omega⟩)

/-! Control flow. -/

/-- Skip one instruction: `PC <- (PC + 2) mod 2^16` when the condition holds (R144). -/
def skipIf (c : Bool) (s : State) : State := if c then s.setPc (s.pc + 2#16) else s

/-! The free values after an AddressOutOfRange inside a handler (R237): each is an opaque constant of Config.lean at
the number of the draw. -/

/-- After DRW: VF, every FB cell and DIRTY. -/
def scrambleDisplay (s : State) : State :=
  (((s.setV 0xF (Config.faultVf s.draws)).setFb (Config.faultFb s.draws)).setDirty
    (Config.faultDirty s.draws)).countDraw

/-- MEM[base .. base + count - 1], where in range, hold the free bytes of draw d. -/
def scrambleBytes (d base : Nat) : (count : Nat) → State → State
  | 0, s => s
  | k + 1, s =>
    if base + k > 0xFFF then scrambleBytes d base k s
    else (scrambleBytes d base k s).storeByte (base + k) (Config.faultMemByte d (base + k))

/-- After LD_B: MEM[I], MEM[I+1], MEM[I+2], where in range. -/
def scrambleBcd (s : State) : State := (scrambleBytes s.draws s.index.toNat 3 s).countDraw

/-- After LD_MEM_I: MEM[I .. 0xFFF] (the in-range part of I .. I + x) and I. -/
def scrambleDump (count : Nat) (s : State) : State :=
  ((scrambleBytes s.draws s.index.toNat count s).setIndex (Config.faultIndex s.draws)).countDraw

/-- V[0 .. count - 1] hold the free bytes of draw d. -/
def scrambleRegs (d : Nat) : (count : Nat) → State → State
  | 0, s => s
  | k + 1, s => (scrambleRegs d k s).setV (Fin.ofNat 16 k) (Config.faultReg d (Fin.ofNat 16 k))

/-- After LD_REG_I: V[0 .. x] and I. -/
def scrambleLoad (count : Nat) (s : State) : State :=
  ((scrambleRegs s.draws count s).setIndex (Config.faultIndex s.draws)).countDraw

/-! Fetch (spec/30_encoding.md rules R100 and R101). -/

/-- The instruction word at PC, high byte first; the first failing read is the fault. -/
def fetchWord (s : State) : Except CpuFault Word :=
  match memRead s s.pc.toNat with
  | .error f => .error f
  | .ok hi =>
    match memRead s (s.pc.toNat + 1) with
    | .error f => .error f
    | .ok lo => .ok (wordOfBytes hi lo)

/-- `PC <- (p + 2) mod 2^16`, before the handler (R100). -/
def advancePc (s : State) : State := s.setPc (s.pc + 2#16)

/-- The word w stored at PC, high byte first, where those addresses exist (log entry 31). -/
def placeWord (w : Word) (s : State) : State :=
  if s.pc.toNat + 1 > 0xFFF then s
  else (s.storeByte s.pc.toNat (highByteOf w)).storeByte (s.pc.toNat + 1) (lowByteOf w)

end Sys2Proof.Machine
end

