-- ==== Sys2Proof/Machine/Operands.lean ====
section
/-! DEFINITION. The operand forms (spec/30_encoding.md rule R105; spec/43_index_memory.md rule R197): zero-extended
immediates, the shift source, the jump offset register, the key index, the glyph address, register blocks. -/

namespace Sys2Proof.Machine

/-- The flag register VF (spec/10_state.md rule R32). -/
abbrev regF : Reg := 0xF

/-- `zext_16(nnn)` (R10, R105). -/
def addrTarget (nnn : Addr12) : Word := nnn.setWidth 16

/-- The source of a shift: V[x], or V[y] when SHIFT_SRC_VY (R168, R170). -/
def shiftSource (s : State) (x y : Reg) : Byte := if s.cfg.shiftSrcVy then s.getV y else s.getV x

/-- The offset register of Bnnn: V0, or V[x] with x = w[11:8] when JUMP_OFFSET_VX (R148). -/
def jumpOffsetReg (c : Cfg) (nnn : Addr12) : Reg := if c.jumpOffsetVx then (nnn.extractLsb' 8 4).toFin else 0

/-- `key_index(v)` (spec/44_timer_keypad.md rule R216). -/
def keyIndex (v : Byte) : Except CpuFault (Fin 16) :=
  if h : v.toNat < 16 then .ok ⟨v.toNat, h⟩ else .error (.keyIndexOutOfRange v)

/-- The lowest key that is down (spec/44_timer_keypad.md rule R212). -/
def lowestKeyDown (s : State) : Option (Fin 16) := (List.finRange 16).find? fun k => s.getKey k

/-- `FONT_BASE + 5 * (v & 0xF)` (R192); at most 0xFFF + 75, so no wrap. -/
def glyphAddr (c : Cfg) (v : Byte) : Word := c.fontBase.setWidth 16 + 5#16 * (v &&& 0xF#8).setWidth 16

/-- V[0..x], the registers a dump stores (R195). -/
def regBlock (s : State) (x : Reg) : List Byte := s.v.toList.take (x.val + 1)

/-- Register count of a dump or load: x + 1 (R195, R196). -/
def regCount (x : Reg) : Nat := x.val + 1

/-- `(base + x + 1) mod 2^16` (R195, R196). -/
def advancedIndex (base : Word) (x : Reg) : Word := base + BitVec.ofNat 16 (regCount x)

/-- The decimal digits of v, hundreds first (R193). -/
def bcdDigits (v : Byte) : List Byte :=
  [BitVec.ofNat 8 (v.toNat / 100), BitVec.ofNat 8 (v.toNat / 10 % 10), BitVec.ofNat 8 (v.toNat % 10)]

/-- `V[i] <- MemRead(base + i, 1)` for i = 0 .. count - 1, ascending (R196). -/
def loadRegs (base : Nat) : (count : Nat) → State → Except CpuFault State
  | 0, s => .ok s
  | k + 1, s =>
    match loadRegs base k s with
    | .error f => .error f
    | .ok t =>
      match memRead t (base + k) with
      | .error f => .error f
      | .ok b => .ok (t.setV (Fin.ofNat 16 k) b)

end Sys2Proof.Machine
end

