-- ==== Sys2Proof/Machine/Flags.lean ====
section
/-! DEFINITION. Every flag computation: VF is the only flag (spec/10_state.md rules R32 and R49). Operands are
converted to naturals, the exact result computed, then narrowed (spec/42_alu.md rules R166 to R173). -/

namespace Sys2Proof.Machine

/-- A flag as the byte VF takes: 1 or 0. -/
def flagByte (f : Bool) : Byte := if f then 1#8 else 0#8

/-- `(a + b) mod 256` (R161, R166). -/
def sumByte (a b : Byte) : Byte := BitVec.ofNat 8 (a.toNat + b.toNat)

/-- The carry of a + b: the sum exceeds 255 (R166). -/
def carryOf (a b : Byte) : Bool := decide (a.toNat + b.toNat > 255)

/-- `(a + 256 - b) mod 256` (R167, R169). -/
def diffByte (a b : Byte) : Byte := BitVec.ofNat 8 (a.toNat + 256 - b.toNat)

/-- No borrow in a - b: a >= b (R167, R169). -/
def noBorrow (a b : Byte) : Bool := decide (a.toNat ≥ b.toNat)

/-- `src >> 1` and the bit shifted out (R168). -/
def shrByte (src : Byte) : Byte := src >>> 1
def shrFlag (src : Byte) : Bool := src.getLsbD 0

/-- `(src << 1) mod 256` and its flag, bit 7, or bit 0 when SHL_FLAG_LSB (R170). -/
def shlByte (src : Byte) : Byte := src <<< 1
def shlFlag (c : Cfg) (src : Byte) : Bool := if c.shlFlagLsb then src.getLsbD 0 else src.getLsbD 7

/-- `write_rf(r, f)`: destination and flag in the order VF_LAST gives (R172, D15). -/
def writeRf (x : Reg) (r : Byte) (f : Bool) (s : State) : State :=
  if s.cfg.vfLast then (s.setV x r).setV regF (flagByte f) else (s.setV regF (flagByte f)).setV x r

end Sys2Proof.Machine
end

