-- ==== Sys2Proof/Machine/Alu.lean ====
section
/-! DEFINITION. The register, arithmetic, bitwise, shift and random instructions (spec/42_alu.md). -/

namespace Sys2Proof.Machine

/-- LD Vx, kk (R160). -/
def execLdImm (x : Reg) (kk : Byte) (s : State) : Host.Outcome State Fault Refusal := .next (s.setV x kk)

/-- ADD Vx, kk (R161): no flag. -/
def execAddImm (x : Reg) (kk : Byte) (s : State) : Host.Outcome State Fault Refusal :=
  .next (s.setV x (sumByte (s.getV x) kk))

/-- LD Vx, Vy (R162). -/
def execLdReg (x y : Reg) (s : State) : Host.Outcome State Fault Refusal := .next (s.setV x (s.getV y))

/-- OR Vx, Vy (R163): no flag. -/
def execOr (x y : Reg) (s : State) : Host.Outcome State Fault Refusal := .next (s.setV x (s.getV x ||| s.getV y))

/-- AND Vx, Vy (R164): no flag. -/
def execAnd (x y : Reg) (s : State) : Host.Outcome State Fault Refusal := .next (s.setV x (s.getV x &&& s.getV y))

/-- XOR Vx, Vy (R165): no flag. -/
def execXor (x y : Reg) (s : State) : Host.Outcome State Fault Refusal := .next (s.setV x (s.getV x ^^^ s.getV y))

/-- ADD Vx, Vy (R166). -/
def execAddReg (x y : Reg) (s : State) : Host.Outcome State Fault Refusal :=
  .next (writeRf x (sumByte (s.getV x) (s.getV y)) (carryOf (s.getV x) (s.getV y)) s)

/-- SUB Vx, Vy (R167). -/
def execSub (x y : Reg) (s : State) : Host.Outcome State Fault Refusal :=
  .next (writeRf x (diffByte (s.getV x) (s.getV y)) (noBorrow (s.getV x) (s.getV y)) s)

/-- SHR Vx {, Vy} (R168). -/
def execShr (x y : Reg) (s : State) : Host.Outcome State Fault Refusal :=
  .next (writeRf x (shrByte (shiftSource s x y)) (shrFlag (shiftSource s x y)) s)

/-- SUBN Vx, Vy (R169). -/
def execSubn (x y : Reg) (s : State) : Host.Outcome State Fault Refusal :=
  .next (writeRf x (diffByte (s.getV y) (s.getV x)) (noBorrow (s.getV y) (s.getV x)) s)

/-- SHL Vx {, Vy} (R170). -/
def execShl (x y : Reg) (s : State) : Host.Outcome State Fault Refusal :=
  .next (writeRf x (shlByte (shiftSource s x y)) (shlFlag s.cfg (shiftSource s x y)) s)

/-- RND Vx, kk (R171): the draw is a free value (R7, D23). -/
def execRnd (x : Reg) (kk : Byte) (s : State) : Host.Outcome State Fault Refusal :=
  .next (s.setV x (Config.randomByte s.draws &&& kk)).countDraw

end Sys2Proof.Machine
end

