-- ==== Sys2Proof/Machine/Control.lean ====
section
/-! DEFINITION. The control-flow instructions (spec/41_control_flow.md). On entry PC already holds p + 2 (R100). -/

namespace Sys2Proof.Machine

/-- SYS (R140): the UnknownInstruction diagnostic, nothing else. -/
def execSys (nnn : Addr12) (s : State) : Host.Outcome State Fault Refusal :=
  .next (runUnknown (encode (.sys nnn)) s)

/-- RET (R141). -/
def execRet (s : State) : Host.Outcome State Fault Refusal :=
  match pop s with
  | .ok (a, t) => .next (t.setPc a)
  | .error f => .next (takeFault f s)

/-- JP (R142). -/
def execJp (nnn : Addr12) (s : State) : Host.Outcome State Fault Refusal := .next (s.setPc (addrTarget nnn))

/-- CALL (R143): the advanced PC is pushed. -/
def execCall (nnn : Addr12) (s : State) : Host.Outcome State Fault Refusal :=
  match push s.pc s with
  | .ok t => .next (t.setPc (addrTarget nnn))
  | .error f => .next (takeFault f s)

/-- SE Vx, kk (R144). -/
def execSeImm (x : Reg) (kk : Byte) (s : State) : Host.Outcome State Fault Refusal :=
  .next (skipIf (s.getV x == kk) s)

/-- SNE Vx, kk (R145). -/
def execSneImm (x : Reg) (kk : Byte) (s : State) : Host.Outcome State Fault Refusal :=
  .next (skipIf (s.getV x != kk) s)

/-- SE Vx, Vy (R146). -/
def execSeReg (x y : Reg) (s : State) : Host.Outcome State Fault Refusal :=
  .next (skipIf (s.getV x == s.getV y) s)

/-- SNE Vx, Vy (R147). -/
def execSneReg (x y : Reg) (s : State) : Host.Outcome State Fault Refusal :=
  .next (skipIf (s.getV x != s.getV y) s)

/-- JP V0, nnn (R148): at most 0x10FE, so no wrap. -/
def execJpV0 (nnn : Addr12) (s : State) : Host.Outcome State Fault Refusal :=
  .next (s.setPc (addrTarget nnn + (s.getV (jumpOffsetReg s.cfg nnn)).setWidth 16))

end Sys2Proof.Machine
end

