-- ==== Sys2Proof/Machine/Display.lean ====
section
/-! DEFINITION. The display instructions CLS and DRW (spec/40_display.md). -/

namespace Sys2Proof.Machine

/-- CLS (R130): every cell 0, DIRTY set. -/
def execCls (s : State) : Host.Outcome State Fault Refusal :=
  .next ((s.setFb blankFb).setDirty true)

/-- Column `px = (x0 + bit) mod 64` (R131). -/
def pixelCol (x0 : Byte) (bit : Nat) : Fin 64 := Fin.ofNat 64 (x0.toNat + bit)

/-- Row `py = (y0 + row) mod 32` (R131). -/
def pixelRow (y0 : Byte) (row : Nat) : Fin 32 := Fin.ofNat 32 (y0.toNat + row)

/-- One sprite bit: a one bit toggles its cell; a cell turned off sets VF (R131). Bit 0 is the leftmost pixel, b[7]
(D20). -/
def drawBit (x0 y0 : Byte) (row : Nat) (b : Byte) (bit : Nat) (s : State) : State :=
  if b.getLsbD (7 - bit) then
    let px := pixelCol x0 bit
    let py := pixelRow y0 row
    let t := if s.getCell px py then s.setV regF 1#8 else s
    t.setCell px py (!s.getCell px py)
  else s

/-- The first `count` bits of a sprite row, from the left (R131). -/
def drawBits (x0 y0 : Byte) (row : Nat) (b : Byte) : (count : Nat) → State → State
  | 0, s => s
  | k + 1, s => drawBit x0 y0 row b k (drawBits x0 y0 row b k s)

/-- The first `count` rows of the sprite at base, from the top (R131); the first failing read is the fault. -/
def drawRows (x0 y0 : Byte) (base : Nat) : (count : Nat) → State → Except CpuFault State
  | 0, s => .ok s
  | k + 1, s =>
    match drawRows x0 y0 base k s with
    | .error f => .error f
    | .ok t =>
      match memRead t (base + k) with
      | .error f => .error f
      | .ok b => .ok (drawBits x0 y0 k b 8 t)

/-- DRW (R131): coordinates and I are read before VF is cleared; after the rows DIRTY is set. On a failing read the
fault is recorded and VF, FB and DIRTY hold free values (R237). -/
def execDrw (x y : Reg) (n : Nibble) (s : State) : Host.Outcome State Fault Refusal :=
  match drawRows (s.getV x) (s.getV y) s.index.toNat n.toNat (s.setV regF 0#8) with
  | .ok t => .next (t.setDirty true)
  | .error f => .next (takeFault f (scrambleDisplay s))

end Sys2Proof.Machine
end

