-- ==== Sys2Proof/Machine/Index.lean ====
section
/-! DEFINITION. The index-register and memory instructions (spec/43_index_memory.md). -/

namespace Sys2Proof.Machine

/-- LD I, nnn (R190). -/
def execLdI (nnn : Addr12) (s : State) : Host.Outcome State Fault Refusal := .next (s.setIndex (addrTarget nnn))

/-- ADD I, Vx (R191): modulo 2^16, no flag. -/
def execAddI (x : Reg) (s : State) : Host.Outcome State Fault Refusal :=
  .next (s.setIndex (s.index + (s.getV x).setWidth 16))

/-- LD F, Vx (R192). -/
def execLdF (x : Reg) (s : State) : Host.Outcome State Fault Refusal :=
  .next (s.setIndex (glyphAddr s.cfg (s.getV x)))

/-- LD B, Vx (R193); on a fault the three bytes, where in range, are free values (R237). -/
def execLdB (x : Reg) (s : State) : Host.Outcome State Fault Refusal :=
  match writeBytes s.index.toNat (bcdDigits (s.getV x)) s with
  | .ok t => .next t
  | .error f => .next (takeFault f (scrambleBcd s))

/-- LD [I], Vx (R195); on a fault MEM[I .. 0xFFF] and I are free values (R237). -/
def execLdMemI (x : Reg) (s : State) : Host.Outcome State Fault Refusal :=
  match writeBytes s.index.toNat (regBlock s x) s with
  | .ok t => .next (if s.cfg.incIStore then t.setIndex (advancedIndex s.index x) else t)
  | .error f => .next (takeFault f (scrambleDump (regCount x) s))

/-- LD Vx, [I] (R196); on a fault V[0 .. x] and I are free values (R237). -/
def execLdRegI (x : Reg) (s : State) : Host.Outcome State Fault Refusal :=
  match loadRegs s.index.toNat (regCount x) s with
  | .ok t => .next (if s.cfg.incILoad then t.setIndex (advancedIndex s.index x) else t)
  | .error f => .next (takeFault f (scrambleLoad (regCount x) s))

end Sys2Proof.Machine
end

