-- ==== Sys2Proof/Machine/TimerKeypad.lean ====
section
/-! DEFINITION. The keypad and timer instructions (spec/44_timer_keypad.md). -/

namespace Sys2Proof.Machine

/-- SKP Vx (R210). -/
def execSkp (x : Reg) (s : State) : Host.Outcome State Fault Refusal :=
  match keyIndex (s.getV x) with
  | .ok k => .next (skipIf (s.getKey k) s)
  | .error f => .next (takeFault f s)

/-- SKNP Vx (R211). -/
def execSknp (x : Reg) (s : State) : Host.Outcome State Fault Refusal :=
  match keyIndex (s.getV x) with
  | .ok k => .next (skipIf (!s.getKey k) s)
  | .error f => .next (takeFault f s)

/-- LD Vx, K (R212): with no key down PC goes back to p. -/
def execLdK (x : Reg) (s : State) : Host.Outcome State Fault Refusal :=
  match lowestKeyDown s with
  | none => .next (s.setPc (fetchAddr s))
  | some k => .next (s.setV x (BitVec.ofNat 8 k.val))

/-- LD Vx, DT (R213). -/
def execLdVxDt (x : Reg) (s : State) : Host.Outcome State Fault Refusal := .next (s.setV x s.dt)

/-- LD DT, Vx (R214). -/
def execLdDt (x : Reg) (s : State) : Host.Outcome State Fault Refusal := .next (s.setDt (s.getV x))

/-- LD ST, Vx (R215): neither raises nor clears the beep. -/
def execLdSt (x : Reg) (s : State) : Host.Outcome State Fault Refusal := .next (s.setSt (s.getV x))

end Sys2Proof.Machine
end

