-- ==== Sys2Proof/Machine/Step.lean ====
section
/-! DEFINITION. One step: one call of runCycle (spec/30_encoding.md rule R100). -/

namespace Sys2Proof.Machine

/-- Run an already fetched word: advance PC, decode, execute (R100). -/
def runWord (w : Word) (s : State) : Host.Outcome State Fault Refusal :=
  match decode w with
  | .ok i => exec i (advancePc s)
  | .error _ => .next (runUnknown w (advancePc s))

/-- One cycle. A fetch fault is recorded and nothing else is written (R101). -/
def step (s : State) : Host.Outcome State Fault Refusal :=
  match fetchWord s with
  | .error f => .next (takeFault f s)
  | .ok w => runWord w s

/-- s with the instruction whose bits are w (spec/opcode_table.json's numbering) stored where step fetches next:
the two bytes at PC (log entry 31). -/
def State.withFetchWord (s : State) (nbits w : Nat) : State := placeWord (tableWord nbits w) s

end Sys2Proof.Machine
end

