-- ==== Sys2Proof/Machine/HostOps.lean ====
section
/-! DEFINITION. The host interface: the eight operations of spec/60_exceptions.md rule R249, each one atomic step
between whole cycles (R250), and runs of them in any order. -/

namespace Sys2Proof.Machine

/-- The outcome a cycle returns to the host (R230). -/
inductive CycleOutcome where
  | ok
  | fault (f : CpuFault)
  | diag (d : Diagnostic)
  deriving DecidableEq, Repr

/-- The error of a load (R230 code 32; spec/20_memory.md rule R79); it carries the byte count. -/
inductive LoadError where
  | programTooLarge (count : Nat)
  deriving DecidableEq, Repr

/-- What a host operation returns (R249). -/
inductive HostResult where
  | none
  | loadOk
  | loadErr (e : LoadError)
  | cycle (o : CycleOutcome)
  | bits (v : Vector Bool 2048)
  | flag (b : Bool)
  deriving DecidableEq, Repr

/-- The host operations (R249). `onKeyEvent` is setKey under another name (R251). -/
inductive HostOp where
  | reset
  | loadProgram (bytes : List Byte)
  | runCycle
  | tickTimers
  | setKey (index : Nat) (pressed : Bool)
  | framebufferSnapshot
  | consumeDirtyFlag
  | beepPending
  deriving DecidableEq, Repr

/-- The numeric code of a load error (R230, D33). -/
def loadErrorCode : LoadError → Nat
  | .programTooLarge _ => 32

/-- `reset()` (spec/70_reset_and_hazards.md rule R270): every field of R30 to its reset value; the records stay and
get a marker (R272); the parameters and the number of draws are no state of the CORE and stay (log entry 34). -/
def hostReset (s : State) : State :=
  { State.initial s.cfg with
    faultRecord := s.faultRecord ++ [.resetMarker]
    diagLog := s.diagLog ++ [.resetMarker]
    draws := s.draws }

/-- Bytes at ascending addresses from base, no range check: loadProgram has checked the whole range. -/
def storeBytes (base : Nat) : List Byte → State → State
  | [], s => s
  | b :: bs, s => storeBytes (base + 1) bs (s.storeByte base b)

/-- `loadProgram(bytes)` (R79): too large a program changes nothing; a load writes only its own bytes. -/
def hostLoad (bytes : List Byte) (s : State) : State × HostResult :=
  if bytes.length + s.cfg.loadAddr.toNat > Config.memSize then (s, .loadErr (.programTooLarge bytes.length))
  else (storeBytes s.cfg.loadAddr.toNat bytes s, .loadOk)

/-- `tickTimers()` (R241). -/
def hostTick (s : State) : State :=
  let t := if s.dt = 0#8 then s else s.setDt (s.dt - 1#8)
  if s.st = 0#8 then t
  else if s.st = 1#8 then (t.setBeep true).setSt 0#8
  else t.setSt (s.st - 1#8)

/-- `framebufferSnapshot()` (R246): bit x + y*64 is FB[x][y]. -/
def snapshot (s : State) : Vector Bool 2048 :=
  Vector.ofFn fun k => s.getCell (Fin.ofNat 64 k.val) (Fin.ofNat 32 (k.val / 64))

/-- The outcome of a cycle that took s to t: the entry it appended to a record, if any (R230, R231, R236;
log entry 35). -/
def cycleOutcome (s t : State) : CycleOutcome :=
  match t.faultRecord.drop s.faultRecord.length with
  | .entry f :: _ => .fault f
  | _ =>
    match t.diagLog.drop s.diagLog.length with
    | .entry d :: _ => .diag d
    | _ => .ok

/-- `runCycle()` (R100): one step and its outcome. -/
def hostCycle (s : State) : Host.Outcome (State × HostResult) Fault Refusal :=
  match step s with
  | .next t => .next (t, .cycle (cycleOutcome s t))
  | .fault f => .fault f
  | .refused r => .refused r

/-- `setKey(index, pressed)` (R245): an index outside 0..15 has no step. -/
def hostSetKey (index : Nat) (pressed : Bool) (s : State) : Host.Outcome (State × HostResult) Fault Refusal :=
  if h : index < 16 then .next (s.setKey ⟨index, h⟩ pressed, .none) else .refused (.keyIndexNoStep index)

/-- One host operation, atomic (R249, R250). -/
def hostStep (op : HostOp) (s : State) : Host.Outcome (State × HostResult) Fault Refusal :=
  match op with
  | .reset => .next (hostReset s, .none)
  | .loadProgram bytes => .next (hostLoad bytes s)
  | .runCycle => hostCycle s
  | .tickTimers => .next (hostTick s, .none)
  | .setKey index pressed => hostSetKey index pressed s
  | .framebufferSnapshot => .next (s, .bits (snapshot s))
  | .consumeDirtyFlag => .next (s.setDirty false, .flag s.dirty)
  | .beepPending => .next (s.setBeep false, .flag s.beep)

/-- A run of the machine: host operations in any order, each applied to the state the one before left (R250). It ends
at the first operation that has no step. -/
def hostRun : List HostOp → State → Host.Outcome State Fault Refusal
  | [], s => .next s
  | op :: ops, s =>
    match hostStep op s with
    | .next (t, _) => hostRun ops t
    | .fault f => .fault f
    | .refused r => .refused r

end Sys2Proof.Machine
end

