-- ==== Sys2Proof/Safety.lean ====
section
/-! DEFINITION. The terms claims use: frames, the invariant of the state, what counts as a safe run, the end of a
run. -/

namespace Sys2Proof.Machine

/-- What a frame lets change: `{}` lets nothing change, a field named in the record lets that piece change. -/
structure Changes where
  mem : Nat → Prop := fun _ => False
  v : Reg → Prop := fun _ => False
  index : Prop := False
  pc : Prop := False
  slot : Fin 16 → Prop := fun _ => False
  sp : Prop := False
  dt : Prop := False
  st : Prop := False
  key : Fin 16 → Prop := fun _ => False
  cell : Fin 64 → Fin 32 → Prop := fun _ _ => False
  dirty : Prop := False
  beep : Prop := False
  faultRecord : Prop := False
  diagLog : Prop := False
  draws : Prop := False

/-- The frame: between s and t everything outside c is unchanged, memory read one byte at a time. A handler starts
with PC = p + 2 (spec/10_state.md rule R34), so an unchanged `pc` between a handler's start and end is PC = p + 2. -/
structure Keeps (c : Changes) (s t : State) : Prop where
  cfg : t.cfg = s.cfg
  mem : ∀ a, ¬ c.mem a → t.byteAt a = s.byteAt a
  v : ∀ r, ¬ c.v r → t.getV r = s.getV r
  index : ¬ c.index → t.index = s.index
  pc : ¬ c.pc → t.pc = s.pc
  slot : ∀ j, ¬ c.slot j → t.getSlot j = s.getSlot j
  sp : ¬ c.sp → t.sp = s.sp
  dt : ¬ c.dt → t.dt = s.dt
  st : ¬ c.st → t.st = s.st
  key : ∀ k, ¬ c.key k → t.getKey k = s.getKey k
  cell : ∀ x y, ¬ c.cell x y → t.getCell x y = s.getCell x y
  dirty : ¬ c.dirty → t.dirty = s.dirty
  beep : ¬ c.beep → t.beep = s.beep
  faultRecord : ¬ c.faultRecord → t.faultRecord = s.faultRecord
  diagLog : ¬ c.diagLog → t.diagLog = s.diagLog
  draws : ¬ c.draws → t.draws = s.draws

/-- The invariant of the state: memory is in canonical form, in range, and the parameters are legal (R78). -/
def stateInv (s : State) : Bool := Memory.wf s.cfg s.mem && s.cfg.wf

/-- The fault record holds no fault (spec/60_exceptions.md rule R238): the premise of a claim that requires success. -/
def noFaultRecorded (s : State) : Bool :=
  s.faultRecord.all fun e => match e with
    | .entry _ => false
    | .resetMarker => true

/-- The boundary that ends a run for claims: the word at PC is a jump to PC itself
(spec/70_reset_and_hazards.md rule R278). -/
def atSelfJump (s : State) : Bool :=
  match fetchWord s with
  | .ok w => fieldOp w == 0x1#4 && addrTarget (fieldNnn w) == s.pc
  | .error _ => false

/-- A word that decodes to no instruction: the first three groups of spec/30_encoding.md rule R112. -/
def isUnknownWord (w : Word) : Bool :=
  (fieldOp w == 0x8#4 && [0x8#4, 0x9#4, 0xA#4, 0xB#4, 0xC#4, 0xD#4, 0xF#4].contains (fieldN w))
  || (fieldOp w == 0xE#4 && !([0x9E#8, 0xA1#8].contains (fieldKk w)))
  || (fieldOp w == 0xF#4
      && !([0x07#8, 0x0A#8, 0x15#8, 0x18#8, 0x1E#8, 0x29#8, 0x33#8, 0x55#8, 0x65#8].contains (fieldKk w)))

/-- A result r for V[x] and a flag f for VF, in the order VF_LAST gives (spec/42_alu.md rule R172), and nothing else
changed: with x = 0xF one register takes both, the later write winning. -/
def WritesResultAndFlag (x : Reg) (r f : Nat) (s t : State) : Prop :=
  (x ≠ 0xF → (t.getV x).toNat = r ∧ (t.getV 0xF).toNat = f) ∧
  (x = 0xF → (t.getV 0xF).toNat = if s.cfg.vfLast then f else r) ∧
  Keeps { v := fun q => q = x ∨ q = 0xF } s t

/-- A set bit of the n-row sprite at I, drawn at (V[x], V[y]), falls on cell (cx, cy), coordinates wrapping
(spec/40_display.md rule R131). -/
def SpriteHits (s : State) (x y : Reg) (n : Nat) (cx : Fin 64) (cy : Fin 32) : Prop :=
  ∃ row bit : Nat, row < n ∧ bit < 8 ∧ (s.byteAt (s.index.toNat + row)).getLsbD (7 - bit) = true ∧
    cx.val = ((s.getV x).toNat + bit) % 64 ∧ cy.val = ((s.getV y).toNat + row) % 32

/-- What address a holds once the bytes have been stored from base on, over the memory of s (spec/20_memory.md rule
R77). -/
def byteAfterStore (s : State) (base : Nat) (bytes : List Byte) (a : Nat) : Byte :=
  if base ≤ a then (bytes[a - base]?).getD (s.byteAt a) else s.byteAt a

/-- Every later fetch, from any PC at which one can succeed and with t's memory, sees the bytes stored from base on over
the memory of s: both bytes of its word, one of them or none (spec/20_memory.md rule R85). -/
def FetchesStored (s t : State) (base : Nat) (bytes : List Byte) : Prop :=
  ∀ u : State, (∀ a, u.byteAt a = t.byteAt a) → u.pc.toNat ≤ 0xFFE →
    fetchWord u = .ok (wordOfBytes (byteAfterStore s base bytes u.pc.toNat)
      (byteAfterStore s base bytes (u.pc.toNat + 1)))

/-- A CALL (spec/41_control_flow.md rule R151 counts them). -/
def isCall : Instr → Bool
  | .call _ => true
  | _ => false

/-- Instructions executed one after another, whatever lies at PC. -/
def runInstrs : List Instr → State → Host.Outcome State Fault Refusal
  | [], s => .next s
  | i :: rest, s =>
    match exec i s with
    | .next t => runInstrs rest t
    | .fault f => .fault f
    | .refused r => .refused r

/-- The outcome is a next state that passes a test. -/
def nextSatisfies (o : Host.Outcome State Fault Refusal) (f : State → Bool) : Bool :=
  match o with
  | .next t => f t
  | .fault _ => false
  | .refused _ => false

end Sys2Proof.Machine
end

