-- ==== Sys2Proof/Certificates/Slice0/Obligations.lean ====
section
/-! DEFINITION. The statements for the provers. Every statement is about all states, so about every configuration
`s.cfg` and every free value. A frame `Keeps c s t` says that everything c does not name is unchanged; PC on entry to
`exec` is already p + 2 (spec/10_state.md rule R34), so an unchanged PC is p + 2. -/

open Sys2Proof Sys2Proof.Machine

/-! ## Encoding, decode and the cycle -/

/-- A word of each family, written from the opcode map, decodes to its instruction, and an unknown word is rejected
(R106 to R110, R112; the spec's decisions D5 and D6, log entries 14 and 15). -/
def Obligations.SampleWordsDecode : Prop :=
  decode 0x00E0#16 = .ok .cls ∧ decode 0xD125#16 = .ok (.drw 1 2 5#4) ∧
  decode 0x00EE#16 = .ok .ret ∧ decode 0x0123#16 = .ok (.sys 0x123#12) ∧ decode 0x1ABC#16 = .ok (.jp 0xABC#12) ∧
  decode 0x3A42#16 = .ok (.seImm 0xA 0x42#8) ∧ decode 0x9AB7#16 = .ok (.sneReg 0xA 0xB) ∧
  decode 0x8AB4#16 = .ok (.addReg 0xA 0xB) ∧ decode 0xCA0F#16 = .ok (.rnd 0xA 0x0F#8) ∧
  decode 0xF533#16 = .ok (.ldB 5) ∧ decode 0xE1A1#16 = .ok (.sknp 1) ∧ decode 0xF518#16 = .ok (.ldSt 5) ∧
  decode 0x8AB8#16 = .error (.unknownInstruction 0x8AB8#16)

/-- Decoding the encoded instruction gives it back, as a word and as bytes in memory order, for every instruction and
every operand value (R103 to R111, R116; the opcode map is the spec's decision D5, log entry 14). -/
def Obligations.DecodeOfEncodeIsIdentity : Prop :=
  ∀ i : Instr, i.wellFormed = true → decode (encode i) = .ok i ∧
    ∀ rest, decodeBytes (encodeBytes i ++ rest) = .ok (i, rest)

/-- What the decoder accepts is well formed, and its encoding is the word it was read from with the bits its row
ignores set to zero (R107, R111; the spec's decision D6, log entry 15). -/
def Obligations.EncodeOfDecodeIsCanonicalWord : Prop :=
  ∀ (w : Word) (i : Instr), decode w = .ok i → i.wellFormed = true ∧ encode i = canonicalWord w

/-- The decoder is total: it rejects exactly the unknown patterns, naming the word, and every other word decodes
(R112, R114; the spec's decisions D5 and D6, log entries 14 and 15). -/
def Obligations.DecoderRejectsExactlyUnknownWords : Prop :=
  ∀ w : Word, (isUnknownWord w = true → decode w = .error (.unknownInstruction w)) ∧
    (isUnknownWord w = false → ∃ i, decode w = .ok i)

/-- When the bytes at PC decode to an instruction, step is its exec on the state with PC advanced by 2 modulo 2^16
(R100; odd PC and the wrap are the spec's decisions D9 and D10, log entry 17). -/
def Obligations.StepRunsDecodedInstruction : Prop :=
  ∀ (s : State) (i : Instr), s.pc.toNat ≤ 0xFFE →
    decode (wordOfBytes (s.byteAt s.pc.toNat) (s.byteAt (s.pc.toNat + 1))) = .ok i →
    step s = exec i { s with pc := s.pc + 2#16 }

/-- A fetch at PC above 0xFFE records AddressOutOfRange at the first failing address and changes nothing else, PC
included (R101; the spec's decision D11, log entries 1 and 18). -/
def Obligations.FetchFaultChangesOnlyTheRecord : Prop :=
  ∀ s : State, 0xFFE < s.pc.toNat →
    ∃ t, step s = .next t ∧
      t.faultRecord = s.faultRecord
        ++ [.entry (.addressOutOfRange (if s.pc.toNat ≤ 0xFFF then 0x1000 else s.pc.toNat))] ∧
      t.mem = s.mem ∧ Keeps { faultRecord := True } s t

/-- A fetched word that decodes to no instruction advances PC, logs the word and its address, and changes nothing else
(R112, R236; the spec's decision D8, log entry 16). -/
def Obligations.UnknownWordIsLoggedNoOp : Prop :=
  ∀ (s : State) (w : Word), fetchWord s = .ok w → isUnknownWord w = true →
    ∃ t, step s = .next t ∧ t.pc = s.pc + 2#16 ∧
      t.diagLog = s.diagLog ++ [.entry (.unknownInstruction w s.pc)] ∧ t.mem = s.mem ∧
      Keeps { pc := True, diagLog := True } s t

/-- runCycle always completes, from every state, with exactly one of the outcomes Ok, Fault, Diag; it appends exactly
that outcome to its own record and nothing to the other (R230, R231, R236, R242; that a fault is a next state with a
record entry is log entry 1, that the outcome is read off the records log entry 35). -/
def Obligations.CycleHasExactlyOneOutcome : Prop :=
  ∀ s : State, ∃ t o, step s = .next t ∧ hostStep .runCycle s = .next (t, .cycle o) ∧
    match o with
    | .ok => t.faultRecord = s.faultRecord ∧ t.diagLog = s.diagLog
    | .fault f => t.faultRecord = s.faultRecord ++ [.entry f] ∧ t.diagLog = s.diagLog
    | .diag d => t.faultRecord = s.faultRecord ∧ t.diagLog = s.diagLog ++ [.entry d]

/-! ## Memory -/

/-- MemRead and MemWrite: a fault above 0xFFF; below, a read gives the byte and a write changes that byte alone (R72). -/
def Obligations.MemoryPrimitivesReadAndWriteOneByte : Prop :=
  ∀ (s : State) (a : Nat) (b : Byte),
    (0xFFF < a → memRead s a = .error (.addressOutOfRange a) ∧ memWrite s a b = .error (.addressOutOfRange a)) ∧
    (a ≤ 0xFFF → memRead s a = .ok (s.byteAt a) ∧
      ∃ t, memWrite s a b = .ok t ∧ t.byteAt a = b ∧ Keeps { mem := fun q => q = a } s t)

/-! ## Reset -/

/-- The state after reset at the default configuration: PC 0x200 (LOAD_ADDR, the spec's decisions D1 and D2, log entry
3), the 80 glyph bytes from 0x050 on (D3, D4, log entries 4 and 5), everything else zero or false (R270, R271); both
records empty and no free value drawn (log entries 12 and 29). -/
def Obligations.ResetStateHasResetValues : Prop :=
  State.reset.pc = 0x200#16 ∧ State.reset.index = 0#16 ∧ State.reset.sp = 0 ∧ State.reset.dt = 0#8 ∧
  State.reset.st = 0#8 ∧ State.reset.dirty = false ∧ State.reset.beep = false ∧
  (∀ r, State.reset.getV r = 0#8) ∧ (∀ j, State.reset.getSlot j = 0#16) ∧ (∀ k, State.reset.getKey k = false) ∧
  (∀ x y, State.reset.getCell x y = false) ∧
  (∀ a, a < 0x050 ∨ 0x0A0 ≤ a → State.reset.byteAt a = 0#8) ∧
  (List.range 80).map (fun d => State.reset.byteAt (0x050 + d)) =
      ([0xF0, 0x90, 0x90, 0x90, 0xF0] ++ [0x20, 0x60, 0x20, 0x20, 0x70] ++
       [0xF0, 0x10, 0xF0, 0x80, 0xF0] ++ [0xF0, 0x10, 0xF0, 0x10, 0xF0] ++
       [0x90, 0x90, 0xF0, 0x10, 0x10] ++ [0xF0, 0x80, 0xF0, 0x10, 0xF0] ++
       [0xF0, 0x80, 0xF0, 0x90, 0xF0] ++ [0xF0, 0x10, 0x20, 0x40, 0x40] ++
       [0xF0, 0x90, 0xF0, 0x90, 0xF0] ++ [0xF0, 0x90, 0xF0, 0x10, 0xF0] ++
       [0xF0, 0x90, 0xF0, 0x90, 0x90] ++ [0xE0, 0x90, 0xE0, 0x90, 0xE0] ++
       [0xF0, 0x80, 0x80, 0x80, 0xF0] ++ [0xE0, 0x90, 0x90, 0x90, 0xE0] ++
       [0xF0, 0x80, 0xF0, 0x80, 0xF0] ++ [0xF0, 0x80, 0xF0, 0x80, 0x80]) ∧
  State.reset.faultRecord = [] ∧ State.reset.diagLog = [] ∧ State.reset.draws = 0

/-- reset() from any state: the parameters stay, every field of R30 takes its reset value for those parameters, the
records are kept and get a marker (R270, R272; the spec's decisions D2, D24, D29; that cfg and draws stay is log entry
34). -/
def Obligations.HostResetRestoresResetState : Prop :=
  ∀ s : State, ∃ t, hostStep .reset s = .next (t, .none) ∧ t.cfg = s.cfg ∧
    t.pc.toNat = s.cfg.loadAddr.toNat ∧ t.index = 0#16 ∧ t.sp = 0 ∧ t.dt = 0#8 ∧ t.st = 0#8 ∧ t.dirty = false ∧
    t.beep = false ∧ (∀ r, t.getV r = 0#8) ∧ (∀ j, t.getSlot j = 0#16) ∧ (∀ k, t.getKey k = false) ∧
    (∀ x y, t.getCell x y = false) ∧
    (∀ (d : Nat) (h : d < 80), t.byteAt (s.cfg.fontBase.toNat + d) = s.cfg.glyphs[d]) ∧
    (∀ a, a < s.cfg.fontBase.toNat ∨ s.cfg.fontBase.toNat + 80 ≤ a → t.byteAt a = 0#8) ∧
    t.faultRecord = s.faultRecord ++ [.resetMarker] ∧ t.diagLog = s.diagLog ++ [.resetMarker] ∧ t.draws = s.draws

/-- The invariant holds at reset: memory is in the model's canonical form (log entry 30), and the default LOAD_ADDR and
FONT_BASE are legal (R51, R78; the spec's decisions D1 and D3, log entries 3 and 4). -/
def Obligations.ResetStateMeetsInvariant : Prop := stateInv State.reset = true

/-! ## Display -/

/-- CLS clears every cell and sets DIRTY, whatever the cells were (R130). -/
def Obligations.ClsClearsEveryCell : Prop :=
  ∀ s : State, ∃ t, exec .cls s = .next t ∧ (∀ x y, t.getCell x y = false) ∧ t.dirty = true ∧ t.mem = s.mem ∧
    Keeps { cell := fun _ _ => True, dirty := True } s t

/-- DRW with all its rows in memory: each cell under a set sprite bit is toggled, coordinates wrapping, every other
cell kept; VF is 1 exactly when a set cell was turned off; DIRTY is set (R131; the bit order and the operand snapshot
are the spec's decision D20, log entry 21). -/
def Obligations.DrwXorsTheSprite : Prop :=
  ∀ (s : State) (x y : Reg) (n : Nibble), (n.toNat = 0 ∨ s.index.toNat + n.toNat ≤ 0x1000) →
    ∃ t, exec (.drw x y n) s = .next t ∧
      (∀ cx cy, SpriteHits s x y n.toNat cx cy → t.getCell cx cy = !s.getCell cx cy) ∧
      ((∃ cx cy, SpriteHits s x y n.toNat cx cy ∧ s.getCell cx cy = true) → t.getV 0xF = 1#8) ∧
      ((¬ ∃ cx cy, SpriteHits s x y n.toNat cx cy ∧ s.getCell cx cy = true) → t.getV 0xF = 0#8) ∧
      t.dirty = true ∧ t.mem = s.mem ∧
      Keeps { v := fun r => r = 0xF, cell := SpriteHits s x y n.toNat, dirty := True } s t

/-- DRW whose rows run past 0xFFF records AddressOutOfRange at the first failing row; only VF, FB and DIRTY (free
values), the record and the draw count may change, PC is p + 2 (R131, R237; the spec's decisions D12 and D13, log
entries 1, 12, 13 and 19). -/
def Obligations.DrwFaultsPastTheEndOfMemory : Prop :=
  ∀ (s : State) (x y : Reg) (n : Nibble), n.toNat ≠ 0 → 0x1000 < s.index.toNat + n.toNat →
    ∃ t, exec (.drw x y n) s = .next t ∧
      t.faultRecord = s.faultRecord ++ [.entry (.addressOutOfRange (max s.index.toNat 0x1000))] ∧ t.mem = s.mem ∧
      Keeps { v := fun r => r = 0xF, cell := fun _ _ => True, dirty := True, faultRecord := True, draws := True } s t

/-- Two draws are self-inverse: a second draw of the same sprite at the same place gives back every cell, and its VF
is 1 exactly when the first draw turned a cell on (R132, which the spec derives from R131; D20, log entry 21). -/
def Obligations.SecondDrawUndoesTheFirst : Prop :=
  ∀ (s t u : State) (x y : Reg) (n : Nibble), (n.toNat = 0 ∨ s.index.toNat + n.toNat ≤ 0x1000) →
    exec (.drw x y n) s = .next t →
    u.index = s.index → u.getV x = s.getV x → u.getV y = s.getV y →
    (∀ row < n.toNat, u.byteAt (s.index.toNat + row) = s.byteAt (s.index.toNat + row)) →
    (∀ cx cy, u.getCell cx cy = t.getCell cx cy) →
    ∃ w, exec (.drw x y n) u = .next w ∧ (∀ cx cy, w.getCell cx cy = s.getCell cx cy) ∧
      (w.getV 0xF = 1#8 ↔ ∃ cx cy, s.getCell cx cy = false ∧ t.getCell cx cy = true)

/-! ## Control flow -/

/-- SYS logs its word and fetch address and changes nothing else (R140; the spec's decision D7, log entry 16). -/
def Obligations.SysIsLoggedNoOp : Prop :=
  ∀ (s : State) (nnn : Addr12), ∃ t, exec (.sys nnn) s = .next t ∧
    t.diagLog = s.diagLog ++ [.entry (.unknownInstruction (BitVec.ofNat 16 nnn.toNat) (s.pc - 2#16))] ∧
    t.mem = s.mem ∧ Keeps { diagLog := True } s t

/-- JP goes to nnn; JP V0 to nnn + V[r] without wrap, r = 0, or w[11:8] when JUMP_OFFSET_VX (R142, R148; the spec's
decision D18, log entry 9). -/
def Obligations.JumpsSetPc : Prop :=
  ∀ (s : State) (nnn : Addr12),
    (∃ t, exec (.jp nnn) s = .next t ∧ t.pc.toNat = nnn.toNat ∧ t.mem = s.mem ∧ Keeps { pc := True } s t) ∧
    (∃ t, exec (.jpV0 nnn) s = .next t ∧
      t.pc.toNat = nnn.toNat + (s.getV (if s.cfg.jumpOffsetVx then Fin.ofNat 16 (nnn.toNat / 256) else 0)).toNat ∧
      t.mem = s.mem ∧ Keeps { pc := True } s t)

/-- push(a): at SP = 16 StackOverflow with the CALL's fetch address and no state written; below, a goes to STACK[SP],
SP goes up by one and nothing else changes (R40). -/
def Obligations.PushStoresAtDepthOrOverflows : Prop :=
  ∀ (s : State) (a : Word),
    (s.sp.val = 16 → push a s = .error (.stackOverflow (s.pc - 2#16))) ∧
    (s.sp.val < 16 → ∃ t, push a s = .ok t ∧ (∀ j : Fin 16, j.val = s.sp.val → t.getSlot j = a) ∧
      t.sp.val = s.sp.val + 1 ∧ t.mem = s.mem ∧ Keeps { slot := fun j => j.val = s.sp.val, sp := True } s t)

/-- CALL with SP below 16 stores the advanced PC in STACK[SP], increments SP and goes to nnn (R40, R143). -/
def Obligations.CallPushesReturnAddress : Prop :=
  ∀ (s : State) (nnn : Addr12), s.sp.val < 16 → ∃ t, exec (.call nnn) s = .next t ∧
    (∀ j : Fin 16, j.val = s.sp.val → t.getSlot j = s.pc) ∧ t.sp.val = s.sp.val + 1 ∧ t.pc.toNat = nnn.toNat ∧
    t.mem = s.mem ∧ Keeps { slot := fun j => j.val = s.sp.val, sp := True, pc := True } s t

/-- CALL with SP = 16 records StackOverflow with its fetch address and pushes nothing; PC stays p + 2 (R40, R233; the
spec's decisions D12 and D33, log entries 1, 13 and 38). -/
def Obligations.CallOnFullStackFaults : Prop :=
  ∀ (s : State) (nnn : Addr12), s.sp.val = 16 → ∃ t, exec (.call nnn) s = .next t ∧
    t.faultRecord = s.faultRecord ++ [.entry (.stackOverflow (s.pc - 2#16))] ∧ t.mem = s.mem ∧
    Keeps { faultRecord := True } s t

/-- RET with SP above 0 decrements SP and takes PC from STACK[SP]; the slot keeps its value (R41, R141; the spec's
decision D28, log entry 28). -/
def Obligations.RetPopsReturnAddress : Prop :=
  ∀ s : State, s.sp.val ≠ 0 → ∃ t, exec .ret s = .next t ∧ t.sp.val + 1 = s.sp.val ∧
    (∀ j : Fin 16, j.val + 1 = s.sp.val → t.pc = s.getSlot j) ∧ t.mem = s.mem ∧ Keeps { sp := True, pc := True } s t

/-- RET with SP = 0 records StackUnderflow with its fetch address and pops nothing; PC stays p + 2 (R41, R234; the
spec's decisions D12 and D33, log entries 1, 13 and 38). -/
def Obligations.RetOnEmptyStackFaults : Prop :=
  ∀ s : State, s.sp.val = 0 → ∃ t, exec .ret s = .next t ∧
    t.faultRecord = s.faultRecord ++ [.entry (.stackUnderflow (s.pc - 2#16))] ∧ t.mem = s.mem ∧
    Keeps { faultRecord := True } s t

/-- SE and SNE with a literal: PC goes 2 further, modulo 2^16, for SE exactly when V[x] = kk, for SNE exactly when
V[x] ≠ kk (R144, R145; D10, log entry 17). -/
def Obligations.SkipsOnLiteral : Prop :=
  ∀ (s : State) (x : Reg) (kk : Byte),
    (∃ t, exec (.seImm x kk) s = .next t ∧
      t.pc.toNat = (s.pc.toNat + if s.getV x = kk then 2 else 0) % 65536 ∧ t.mem = s.mem ∧ Keeps { pc := True } s t) ∧
    (∃ t, exec (.sneImm x kk) s = .next t ∧
      t.pc.toNat = (s.pc.toNat + if s.getV x = kk then 0 else 2) % 65536 ∧ t.mem = s.mem ∧ Keeps { pc := True } s t)

/-- SE and SNE with two registers: PC goes 2 further, modulo 2^16, for SE exactly when V[x] = V[y], for SNE exactly when
V[x] ≠ V[y] (R146, R147; D10, log entry 17). -/
def Obligations.SkipsOnRegisters : Prop :=
  ∀ (s : State) (x y : Reg),
    (∃ t, exec (.seReg x y) s = .next t ∧
      t.pc.toNat = (s.pc.toNat + if s.getV x = s.getV y then 2 else 0) % 65536 ∧ t.mem = s.mem ∧
      Keeps { pc := True } s t) ∧
    (∃ t, exec (.sneReg x y) s = .next t ∧
      t.pc.toNat = (s.pc.toNat + if s.getV x = s.getV y then 0 else 2) % 65536 ∧ t.mem = s.mem ∧
      Keeps { pc := True } s t)

/-- Call then return round-trips PC: after a CALL at A with SP below 16, the matching RET, executed with the stack as
the call left it, leaves PC = A + 2 and SP as before the CALL (R150, which the spec derives). -/
def Obligations.CallThenReturnRestoresPc : Prop :=
  ∀ (s : State) (c : Word) (nnn : Addr12), s.sp.val < 16 → fetchWord s = .ok c → decode c = .ok (.call nnn) →
    ∃ t, step s = .next t ∧
      ∀ (u : State) (r : Word), fetchWord u = .ok r → decode r = .ok .ret → u.sp = t.sp →
        (∀ j, u.getSlot j = t.getSlot j) → ∃ w, step u = .next w ∧ w.pc = s.pc + 2#16 ∧ w.sp = s.sp

/-- Starting from SP = 0, a sequence of instructions with at most sixteen CALLs and no RET never overflows the stack and
leaves SP at the number of CALLs; after sixteen the next CALL records StackOverflow; a RET at SP = 0 records
StackUnderflow (R151, which the spec derives; a fault as a next state with a record entry is log entry 1, that SP is
kept is D12, log entry 13, the payloads are D33, log entry 38). -/
def Obligations.StackHoldsSixteenCalls : Prop :=
  ∀ s : State, s.sp.val = 0 →
    (∀ is : List Instr, .ret ∉ is → is.countP isCall ≤ 16 → ∃ t, runInstrs is s = .next t ∧
      t.sp.val = is.countP isCall ∧
      (∀ p, .entry (.stackOverflow p) ∈ t.faultRecord → .entry (.stackOverflow p) ∈ s.faultRecord) ∧
      (is.countP isCall = 16 → ∀ nnn, ∃ u, exec (.call nnn) t = .next u ∧ u.sp.val = 16 ∧
        u.faultRecord = t.faultRecord ++ [.entry (.stackOverflow (t.pc - 2#16))])) ∧
    (∃ u, exec .ret s = .next u ∧ u.sp.val = 0 ∧
      u.faultRecord = s.faultRecord ++ [.entry (.stackUnderflow (s.pc - 2#16))])

/-! ## Registers and arithmetic -/

/-- 6xkk decodes to LD Vx, kk, which writes kk to V[x] and nothing else, so VF only when x = 0xF (R160). -/
def Obligations.LoadLiteralWritesOneRegister : Prop :=
  ∀ (s : State) (x : Reg) (kk : Byte), decode (asmXkk 0x6#4 x kk) = .ok (.ldImm x kk) ∧
    ∃ t, exec (.ldImm x kk) s = .next t ∧ t.getV x = kk ∧ t.mem = s.mem ∧ Keeps { v := fun r => r = x } s t

/-- LD Vx, Vy writes V[y] to V[x] and nothing else (R162). -/
def Obligations.CopyWritesOneRegister : Prop :=
  ∀ (s : State) (x y : Reg), ∃ t, exec (.ldReg x y) s = .next t ∧ t.getV x = s.getV y ∧ t.mem = s.mem ∧
    Keeps { v := fun r => r = x } s t

/-- 7xkk decodes to ADD Vx, kk, which adds modulo 256 and writes no flag, even on overflow (R161). -/
def Obligations.AddLiteralWrapsWithoutFlag : Prop :=
  ∀ (s : State) (x : Reg) (kk : Byte), decode (asmXkk 0x7#4 x kk) = .ok (.addImm x kk) ∧
    ∃ t, exec (.addImm x kk) s = .next t ∧ (t.getV x).toNat = ((s.getV x).toNat + kk.toNat) % 256 ∧ t.mem = s.mem ∧
      Keeps { v := fun r => r = x } s t

/-- OR, AND and XOR work bit by bit on V[x] and V[y] and write no flag (R163, R164, R165). -/
def Obligations.LogicIsBitwiseWithoutFlag : Prop :=
  ∀ (s : State) (x y : Reg),
    (∃ t, exec (.or x y) s = .next t ∧
      (∀ j, (t.getV x).getLsbD j = ((s.getV x).getLsbD j || (s.getV y).getLsbD j)) ∧ t.mem = s.mem ∧
      Keeps { v := fun r => r = x } s t) ∧
    (∃ t, exec (.and x y) s = .next t ∧
      (∀ j, (t.getV x).getLsbD j = ((s.getV x).getLsbD j && (s.getV y).getLsbD j)) ∧ t.mem = s.mem ∧
      Keeps { v := fun r => r = x } s t) ∧
    (∃ t, exec (.xor x y) s = .next t ∧
      (∀ j, (t.getV x).getLsbD j = ((s.getV x).getLsbD j != (s.getV y).getLsbD j)) ∧ t.mem = s.mem ∧
      Keeps { v := fun r => r = x } s t)

/-- ADD Vx, Vy: the sum modulo 256, VF 1 exactly when the sum exceeds 255 (R166; the order for x = 0xF is the spec's
decision D15, log entry 6). -/
def Obligations.AddRegistersCarriesIntoVF : Prop :=
  ∀ (s : State) (x y : Reg), ∃ t, exec (.addReg x y) s = .next t ∧ t.mem = s.mem ∧
    WritesResultAndFlag x (((s.getV x).toNat + (s.getV y).toNat) % 256)
      (if 255 < (s.getV x).toNat + (s.getV y).toNat then 1 else 0) s t

/-- SUB and SUBN: the difference modulo 256, VF 1 exactly when there is no borrow (R167, R169; D15, log entry 6; that
SUBN's destination is V[x] the spec gives from general knowledge, log entry 14). -/
def Obligations.SubtractsSetNoBorrow : Prop :=
  ∀ (s : State) (x y : Reg),
    (∃ t, exec (.sub x y) s = .next t ∧ t.mem = s.mem ∧
      WritesResultAndFlag x (((s.getV x).toNat + 256 - (s.getV y).toNat) % 256)
        (if (s.getV y).toNat ≤ (s.getV x).toNat then 1 else 0) s t) ∧
    (∃ t, exec (.subn x y) s = .next t ∧ t.mem = s.mem ∧
      WritesResultAndFlag x (((s.getV y).toNat + 256 - (s.getV x).toNat) % 256)
        (if (s.getV x).toNat ≤ (s.getV y).toNat then 1 else 0) s t)

/-- SHR and SHL move the source one bit and put the bit shifted out into VF; the source is V[x], or V[y] when
SHIFT_SRC_VY, and SHL's flag is bit 0 when SHL_FLAG_LSB (R168, R170; the spec's decisions D15, D16, D17, log entries
6, 7, 8). -/
def Obligations.ShiftsMoveOneBit : Prop :=
  ∀ (s : State) (x y : Reg) (src : Nat), src = (if s.cfg.shiftSrcVy then s.getV y else s.getV x).toNat →
    (∃ t, exec (.shr x y) s = .next t ∧ t.mem = s.mem ∧ WritesResultAndFlag x (src / 2) (src % 2) s t) ∧
    (∃ t, exec (.shl x y) s = .next t ∧ t.mem = s.mem ∧
      WritesResultAndFlag x (src * 2 % 256) (if s.cfg.shlFlagLsb then src % 2 else src / 128) s t)

/-- RND writes the free draw masked by kk: no bit outside kk is set, and kk = 0xFF gives the draw itself. Nothing is
known of the draw, so this holds for every draw (R171; the spec's decision D23, log entry 11). The count of draws, the
model's own field, goes up by one (log entry 12). -/
def Obligations.RndMasksTheDraw : Prop :=
  ∀ (s : State) (x : Reg) (kk : Byte), ∃ t, exec (.rnd x kk) s = .next t ∧
    (∀ j, (t.getV x).getLsbD j = ((Config.randomByte s.draws).getLsbD j && kk.getLsbD j)) ∧
    t.draws = s.draws + 1 ∧ t.mem = s.mem ∧ Keeps { v := fun r => r = x, draws := True } s t

/-! ## Index register and memory instructions -/

/-- LD I, ADD I and LD F write I alone: nnn; I + V[x] modulo 2^16, no flag; the glyph address of V[x]'s low nibble
(R190, R191, R192; the spec's decisions D3 and D14, log entries 4 and 20). -/
def Obligations.IndexInstructionsWriteI : Prop :=
  ∀ (s : State) (x : Reg) (nnn : Addr12),
    (∃ t, exec (.ldI nnn) s = .next t ∧ t.index.toNat = nnn.toNat ∧ t.mem = s.mem ∧ Keeps { index := True } s t) ∧
    (∃ t, exec (.addI x) s = .next t ∧ t.index.toNat = (s.index.toNat + (s.getV x).toNat) % 65536 ∧ t.mem = s.mem ∧
      Keeps { index := True } s t) ∧
    (∃ t, exec (.ldF x) s = .next t ∧ t.index.toNat = s.cfg.fontBase.toNat + 5 * ((s.getV x).toNat % 16) ∧
      t.mem = s.mem ∧ Keeps { index := True } s t)

/-- LD B stores the hundreds, tens and ones of V[x] at I, I + 1, I + 2 when they exist (R193). -/
def Obligations.BcdStoresThreeDigits : Prop :=
  ∀ (s : State) (x : Reg), s.index.toNat ≤ 0xFFD → ∃ t, exec (.ldB x) s = .next t ∧
    (t.byteAt s.index.toNat).toNat = (s.getV x).toNat / 100 ∧
    (t.byteAt (s.index.toNat + 1)).toNat = (s.getV x).toNat / 10 % 10 ∧
    (t.byteAt (s.index.toNat + 2)).toNat = (s.getV x).toNat % 10 ∧
    Keeps { mem := fun a => s.index.toNat ≤ a ∧ a ≤ s.index.toNat + 2 } s t

/-- LD B with I above 0xFFD records AddressOutOfRange at the first address that does not exist; only the bytes in range
(free values), the record and the draw count may change (R193, R237; the spec's decisions D12 and D13, log entries 1,
12, 13 and 19). -/
def Obligations.BcdFaultsPastTheEndOfMemory : Prop :=
  ∀ (s : State) (x : Reg), 0xFFD < s.index.toNat → ∃ t, exec (.ldB x) s = .next t ∧
    t.faultRecord = s.faultRecord ++ [.entry (.addressOutOfRange (max s.index.toNat 0x1000))] ∧
    Keeps { mem := fun a => s.index.toNat ≤ a ∧ a ≤ s.index.toNat + 2 ∧ a ≤ 0xFFF, faultRecord := True,
            draws := True } s t

/-- LD [I], Vx stores V0 .. Vx at I .. I + x when they exist; I advances by x + 1 modulo 2^16 exactly when INC_I_STORE
(R194, R195; the spec's decision D19, log entry 10). -/
def Obligations.DumpStoresRegisters : Prop :=
  ∀ (s : State) (x : Reg), s.index.toNat + x.val ≤ 0xFFF → ∃ t, exec (.ldMemI x) s = .next t ∧
    (∀ r : Reg, r ≤ x → t.byteAt (s.index.toNat + r.val) = s.getV r) ∧
    t.index.toNat = (if s.cfg.incIStore then (s.index.toNat + x.val + 1) % 65536 else s.index.toNat) ∧
    Keeps { mem := fun a => s.index.toNat ≤ a ∧ a ≤ s.index.toNat + x.val, index := True } s t

/-- LD [I], Vx past 0xFFF records AddressOutOfRange at the first address that does not exist; only MEM[I .. 0xFFF], I
(free values), the record and the draw count may change (R195, R237; D12 and D13, log entries 1, 12, 13 and 19). -/
def Obligations.DumpFaultsPastTheEndOfMemory : Prop :=
  ∀ (s : State) (x : Reg), 0xFFF < s.index.toNat + x.val → ∃ t, exec (.ldMemI x) s = .next t ∧
    t.faultRecord = s.faultRecord ++ [.entry (.addressOutOfRange (max s.index.toNat 0x1000))] ∧
    Keeps { mem := fun a => s.index.toNat ≤ a ∧ a ≤ 0xFFF, index := True, faultRecord := True, draws := True } s t

/-- LD Vx, [I] loads V0 .. Vx from I .. I + x when they exist; I advances by x + 1 modulo 2^16 exactly when INC_I_LOAD
(R194, R196; the spec's decision D19, log entry 10). -/
def Obligations.LoadReadsRegisters : Prop :=
  ∀ (s : State) (x : Reg), s.index.toNat + x.val ≤ 0xFFF → ∃ t, exec (.ldRegI x) s = .next t ∧
    (∀ r : Reg, r ≤ x → t.getV r = s.byteAt (s.index.toNat + r.val)) ∧
    t.index.toNat = (if s.cfg.incILoad then (s.index.toNat + x.val + 1) % 65536 else s.index.toNat) ∧
    t.mem = s.mem ∧ Keeps { v := fun r => r ≤ x, index := True } s t

/-- LD Vx, [I] past 0xFFF records AddressOutOfRange at the first address that does not exist; only V[0 .. x], I (free
values), the record and the draw count may change (R196, R237; D12 and D13, log entries 1, 12, 13 and 19). -/
def Obligations.LoadFaultsPastTheEndOfMemory : Prop :=
  ∀ (s : State) (x : Reg), 0xFFF < s.index.toNat + x.val → ∃ t, exec (.ldRegI x) s = .next t ∧
    t.faultRecord = s.faultRecord ++ [.entry (.addressOutOfRange (max s.index.toNat 0x1000))] ∧ t.mem = s.mem ∧
    Keeps { v := fun r => r ≤ x, index := True, faultRecord := True, draws := True } s t

/-- A register dump followed by a register load at the same I gives the registers back, whatever they held in between
(R195, R196). -/
def Obligations.LoadUndoesDump : Prop :=
  ∀ (s t u : State) (x : Reg), s.index.toNat + x.val ≤ 0xFFF → exec (.ldMemI x) s = .next t →
    u.index = s.index → (∀ a, u.byteAt a = t.byteAt a) →
    ∃ w, exec (.ldRegI x) u = .next w ∧ ∀ r : Reg, r ≤ x → w.getV r = s.getV r

/-- A store is seen by every later fetch: after LD B, LD [I], Vx or a load by the host that fits, a fetch at any PC up to
0xFFE gives the stored byte for each of its two addresses that was stored to, and the byte held before for the others
(R85, which the spec derives; D27, log entry 27, for the load). -/
def Obligations.FetchSeesStoredBytes : Prop :=
  ∀ s t : State,
    (∀ x : Reg, s.index.toNat ≤ 0xFFD → exec (.ldB x) s = .next t →
      FetchesStored s t s.index.toNat [BitVec.ofNat 8 ((s.getV x).toNat / 100),
        BitVec.ofNat 8 ((s.getV x).toNat / 10 % 10), BitVec.ofNat 8 ((s.getV x).toNat % 10)]) ∧
    (∀ x : Reg, s.index.toNat + x.val ≤ 0xFFF → exec (.ldMemI x) s = .next t →
      FetchesStored s t s.index.toNat ((List.range (x.val + 1)).map fun k => s.getV (Fin.ofNat 16 k))) ∧
    (∀ bytes : List Byte, hostStep (.loadProgram bytes) s = .next (t, .loadOk) →
      FetchesStored s t s.cfg.loadAddr.toNat bytes)

/-! ## Keypad and timers -/

/-- SKP and SKNP with V[x] a key index: PC goes 2 further, modulo 2^16, for SKP exactly when that key is down, for SKNP
exactly when it is not (R210, R211, R216; D10, log entry 17). -/
def Obligations.KeySkipsTestTheKey : Prop :=
  ∀ (s : State) (x : Reg) (k : Fin 16), (s.getV x).toNat = k.val →
    (∃ t, exec (.skp x) s = .next t ∧ t.pc.toNat = (s.pc.toNat + if s.getKey k then 2 else 0) % 65536 ∧
      t.mem = s.mem ∧ Keeps { pc := True } s t) ∧
    (∃ t, exec (.sknp x) s = .next t ∧ t.pc.toNat = (s.pc.toNat + if s.getKey k then 0 else 2) % 65536 ∧
      t.mem = s.mem ∧ Keeps { pc := True } s t)

/-- SKP and SKNP with V[x] above 15 record KeyIndexOutOfRange(V[x]) and change nothing else (R216, R235; the spec's
decision D21, log entries 1 and 22). -/
def Obligations.KeyIndexAboveFifteenFaults : Prop :=
  ∀ (s : State) (x : Reg), 15 < (s.getV x).toNat →
    (∃ t, exec (.skp x) s = .next t ∧
      t.faultRecord = s.faultRecord ++ [.entry (.keyIndexOutOfRange (s.getV x))] ∧ t.mem = s.mem ∧
      Keeps { faultRecord := True } s t) ∧
    (∃ t, exec (.sknp x) s = .next t ∧
      t.faultRecord = s.faultRecord ++ [.entry (.keyIndexOutOfRange (s.getV x))] ∧ t.mem = s.mem ∧
      Keeps { faultRecord := True } s t)

/-- LD Vx, K with a key down stores the lowest index that is down (R212; the spec's decision D22, log entry 23). -/
def Obligations.KeyWaitTakesTheLowestKey : Prop :=
  ∀ (s : State) (x : Reg) (k : Fin 16), s.getKey k = true → (∀ j < k, s.getKey j = false) →
    ∃ t, exec (.ldK x) s = .next t ∧ (t.getV x).toNat = k.val ∧ t.mem = s.mem ∧ Keeps { v := fun r => r = x } s t

/-- LD Vx, K with no key down takes PC back to its own address: the whole cycle changes nothing, so it repeats (R212). -/
def Obligations.KeyWaitRepeatsWithoutAKey : Prop :=
  ∀ (s : State) (w : Word) (x : Reg), fetchWord s = .ok w → decode w = .ok (.ldK x) → (∀ k, s.getKey k = false) →
    step s = .next s

/-- The timer transfers: LD Vx, DT; LD DT, Vx; LD ST, Vx, the last without a beep (R213, R214, R215). -/
def Obligations.TimerTransfersCopyOneByte : Prop :=
  ∀ (s : State) (x : Reg),
    (∃ t, exec (.ldVxDt x) s = .next t ∧ t.getV x = s.dt ∧ t.mem = s.mem ∧ Keeps { v := fun r => r = x } s t) ∧
    (∃ t, exec (.ldDt x) s = .next t ∧ t.dt = s.getV x ∧ t.mem = s.mem ∧ Keeps { dt := True } s t) ∧
    (∃ t, exec (.ldSt x) s = .next t ∧ t.st = s.getV x ∧ t.mem = s.mem ∧ Keeps { st := True } s t)

/-! ## The host interface -/

/-- tickTimers decrements each timer by one, never below 0, and sets BEEP exactly when ST goes from 1 to 0
(R241; the spec's decisions D24 and D30, log entries 24 and 39). -/
def Obligations.TickDecrementsTimers : Prop :=
  ∀ s : State, ∃ t, hostStep .tickTimers s = .next (t, .none) ∧ t.dt.toNat = s.dt.toNat - 1 ∧
    t.st.toNat = s.st.toNat - 1 ∧ t.beep = (s.beep || s.st == 1#8) ∧ t.mem = s.mem ∧
    Keeps { dt := True, st := True, beep := True } s t

/-- After n ticks each timer has gone down by n, stopping at 0, and BEEP is set afterwards exactly when it was set
before or ST went from 1 to 0 among them (R241; the spec's decisions D24 and D34, log entries 24 and 32). -/
def Obligations.TicksCountDown : Prop :=
  ∀ (s : State) (n : Nat), ∃ t, hostRun (List.replicate n .tickTimers) s = .next t ∧
    t.dt.toNat = s.dt.toNat - n ∧ t.st.toNat = s.st.toNat - n ∧
    (t.beep = true ↔ s.beep = true ∨ (1 ≤ s.st.toNat ∧ s.st.toNat ≤ n))

/-- setKey writes one key; an index above 15 has no step (R245; the spec's decision D26, log entry 26). -/
def Obligations.SetKeyWritesOneKey : Prop :=
  ∀ (s : State) (index : Nat) (pressed : Bool),
    (∀ k : Fin 16, k.val = index → ∃ t, hostStep (.setKey index pressed) s = .next (t, .none) ∧
      t.getKey k = pressed ∧ t.mem = s.mem ∧ Keeps { key := fun q => q = k } s t) ∧
    (15 < index → hostStep (.setKey index pressed) s = .refused (.keyIndexNoStep index))

/-- framebufferSnapshot returns the 2048 cells, cell x + y*64 being FB[x][y], and writes no state, DIRTY included
(R246). -/
def Obligations.SnapshotReturnsTheCells : Prop :=
  ∀ s : State, ∃ bits : Vector Bool 2048, hostStep .framebufferSnapshot s = .next (s, .bits bits) ∧
    ∀ (x : Fin 64) (y : Fin 32) (k : Fin 2048), k.val = x.val + y.val * 64 → bits[k.val] = s.getCell x y

/-- consumeDirtyFlag and beepPending return what the latch held and clear it, nothing else (R247, R248; the spec's
decision D24, log entry 24). -/
def Obligations.LatchReadsClearTheLatch : Prop :=
  ∀ s : State,
    (∃ t, hostStep .consumeDirtyFlag s = .next (t, .flag s.dirty) ∧ t.dirty = false ∧ t.mem = s.mem ∧
      Keeps { dirty := True } s t) ∧
    (∃ t, hostStep .beepPending s = .next (t, .flag s.beep) ∧ t.beep = false ∧ t.mem = s.mem ∧
      Keeps { beep := True } s t)

/-- loadProgram that fits copies its bytes from LOAD_ADDR on and changes nothing else, PC included; one that does not
fit changes nothing and names its length (R79; the spec's decision D27, log entry 27). -/
def Obligations.LoadProgramCopiesOrRefuses : Prop :=
  ∀ (s : State) (bytes : List Byte),
    (bytes.length + s.cfg.loadAddr.toNat ≤ 4096 → ∃ t, hostStep (.loadProgram bytes) s = .next (t, .loadOk) ∧
      (∀ (k : Nat) (h : k < bytes.length), t.byteAt (s.cfg.loadAddr.toNat + k) = bytes[k]) ∧
      Keeps { mem := fun a => s.cfg.loadAddr.toNat ≤ a ∧ a < s.cfg.loadAddr.toNat + bytes.length } s t) ∧
    (4096 < bytes.length + s.cfg.loadAddr.toNat →
      hostStep (.loadProgram bytes) s = .next (s, .loadErr (.programTooLarge bytes.length)))

/-! ## The whole machine -/

/-- Every cycle keeps the invariant: memory stays in canonical form and in range, the parameters stay legal
(R51, R72, R78; log entry 30). -/
def Obligations.EveryStepKeepsInvariant : Prop :=
  ∀ s t : State, stateInv s = true → step s = .next t → stateInv t = true

/-- Every run of host operations in any order keeps the invariant and the parameters, and only appends to the fault
record and the diagnostic log (R52, R238, R250, R272; log entries 29 and 30). -/
def Obligations.EveryHostRunKeepsInvariantAndRecords : Prop :=
  ∀ (ops : List HostOp) (s t : State), stateInv s = true → hostRun ops s = .next t →
    stateInv t = true ∧ t.cfg = s.cfg ∧ s.faultRecord <+: t.faultRecord ∧ s.diagLog <+: t.diagLog

/-- Who writes what: every general register, I, the stack, SP, DT, ST, memory, the framebuffer and DIRTY change only by the
instructions that the state record names for them, and no instruction changes the parameters, KEY or BEEP (R30 to R32,
R44 to R48, R71; the free values after a fault are D12, log entry 13). The two records are no part of that table: the
fault record changes only by the instructions that can fault (R230, R237; a fault as a next state is log entry 1), the
diagnostic log only by SYS (R236; D7, log entry 16; an unknown word is no instruction and does not reach exec). -/
def Obligations.OnlyListedInstructionsWriteEachPiece : Prop :=
  ∀ (i : Instr) (s t : State), exec i s = .next t →
    t.cfg = s.cfg ∧ t.key = s.key ∧ t.beep = s.beep ∧
    (t.dt ≠ s.dt → ∃ x, i = .ldDt x) ∧
    (t.st ≠ s.st → ∃ x, i = .ldSt x) ∧
    (t.stack ≠ s.stack → ∃ nnn, i = .call nnn) ∧
    (t.sp ≠ s.sp → i = .ret ∨ ∃ nnn, i = .call nnn) ∧
    (t.mem ≠ s.mem → ∃ x, i = .ldB x ∨ i = .ldMemI x) ∧
    (t.fb ≠ s.fb ∨ t.dirty ≠ s.dirty → i = .cls ∨ ∃ x y n, i = .drw x y n) ∧
    (t.index ≠ s.index → (∃ nnn, i = .ldI nnn) ∨ ∃ x, i = .addI x ∨ i = .ldF x ∨ i = .ldMemI x ∨ i = .ldRegI x) ∧
    (t.diagLog ≠ s.diagLog → ∃ nnn, i = .sys nnn) ∧
    (t.faultRecord ≠ s.faultRecord → i = .ret ∨ (∃ nnn, i = .call nnn) ∨ (∃ x y n, i = .drw x y n) ∨
      ∃ x, i = .skp x ∨ i = .sknp x ∨ i = .ldB x ∨ i = .ldMemI x ∨ i = .ldRegI x) ∧
    (∀ r : Reg, r ≠ 0xF → t.getV r ≠ s.getV r →
      (∃ kk, i = .ldImm r kk ∨ i = .addImm r kk ∨ i = .rnd r kk) ∨
      (∃ y, i = .ldReg r y ∨ i = .or r y ∨ i = .and r y ∨ i = .xor r y ∨ i = .addReg r y ∨ i = .sub r y ∨
        i = .shr r y ∨ i = .subn r y ∨ i = .shl r y) ∨
      i = .ldVxDt r ∨ i = .ldK r ∨ ∃ x, r ≤ x ∧ i = .ldRegI x) ∧
    (t.getV 0xF ≠ s.getV 0xF →
      (∃ x y, i = .addReg x y ∨ i = .sub x y ∨ i = .shr x y ∨ i = .subn x y ∨ i = .shl x y) ∨
      (∃ x y n, i = .drw x y n) ∨
      (∃ kk, i = .ldImm 0xF kk ∨ i = .addImm 0xF kk ∨ i = .rnd 0xF kk) ∨
      (∃ y, i = .ldReg 0xF y ∨ i = .or 0xF y ∨ i = .and 0xF y ∨ i = .xor 0xF y) ∨
      i = .ldVxDt 0xF ∨ i = .ldK 0xF ∨ i = .ldRegI 0xF)

/-- No program can read BEEP, DIRTY or ST: two states that differ only in them step to states that differ only in
them (R44, R54). -/
def Obligations.ProgramsCannotReadLatchesOrSt : Prop :=
  ∀ (s t : State) (beep dirty : Bool) (st : Byte), step s = .next t →
    ∃ u, step { s with beep := beep, dirty := dirty, st := st } = .next u ∧
      { u with beep := t.beep, dirty := t.dirty, st := t.st } = t

/-- At the boundary that ends a run, a jump to itself, every cycle leaves the whole state unchanged (R278; the spec's
decision D35, log entry 33). -/
def Obligations.SelfJumpLeavesStateUnchanged : Prop :=
  ∀ s : State, atSelfJump s = true → step s = .next s
end

