-- ==== Sys2Proof/Laws/Decode.lean ====
section
/-! SUPPORT. The fields of a word and the words of the encoder as naturals, and the fields of the encoder's words. -/

namespace Sys2Proof

theorem fieldOp_toNat (w : Word) : (fieldOp w).toNat = w.toNat / 4096 % 16 := by
  simp [fieldOp, BitVec.extractLsb'_toNat, Nat.shiftRight_eq_div_pow]

theorem fieldX_val (w : Word) : (fieldX w).val = w.toNat / 256 % 16 := by
  simp [fieldX, Nat.shiftRight_eq_div_pow]

theorem fieldY_val (w : Word) : (fieldY w).val = w.toNat / 16 % 16 := by
  simp [fieldY, Nat.shiftRight_eq_div_pow]

theorem fieldN_toNat (w : Word) : (fieldN w).toNat = w.toNat % 16 := by
  simp [fieldN, BitVec.extractLsb'_toNat]

theorem fieldKk_toNat (w : Word) : (fieldKk w).toNat = w.toNat % 256 := by
  simp [fieldKk, BitVec.extractLsb'_toNat]

theorem fieldNnn_toNat (w : Word) : (fieldNnn w).toNat = w.toNat % 4096 := by
  simp [fieldNnn, BitVec.extractLsb'_toNat]

theorem highByteOf_toNat (w : Word) : (highByteOf w).toNat = w.toNat / 256 % 256 := by
  simp [highByteOf, BitVec.extractLsb'_toNat, Nat.shiftRight_eq_div_pow]

theorem lowByteOf_toNat (w : Word) : (lowByteOf w).toNat = w.toNat % 256 := by
  simp [lowByteOf, BitVec.extractLsb'_toNat]

theorem lowByte_toNat (nnn : Addr12) : (lowByte nnn).toNat = nnn.toNat % 256 := by
  simp [lowByte, BitVec.extractLsb'_toNat]

theorem append_toNat {m n : Nat} (a : BitVec m) (b : BitVec n) : (a ++ b).toNat = a.toNat * 2 ^ n + b.toNat := by
  rw [BitVec.toNat_append, ← Nat.shiftLeft_add_eq_or_of_lt b.isLt, Nat.shiftLeft_eq]

theorem regNibble_toNat (r : Reg) : (regNibble r).toNat = r.val := rfl

theorem asmNnn_toNat (op : Nibble) (nnn : Addr12) : (asmNnn op nnn).toNat = op.toNat * 4096 + nnn.toNat :=
  append_toNat op nnn

theorem asmXkk_toNat (op : Nibble) (x : Reg) (kk : Byte) :
    (asmXkk op x kk).toNat = op.toNat * 4096 + x.val * 256 + kk.toNat := by
  change ((op ++ regNibble x) ++ kk).toNat = _
  rw [append_toNat, append_toNat, regNibble_toNat]
  omega

theorem asmXyn_toNat (op : Nibble) (x y : Reg) (n : Nibble) :
    (asmXyn op x y n).toNat = op.toNat * 4096 + x.val * 256 + y.val * 16 + n.toNat := by
  change ((op ++ regNibble x ++ regNibble y) ++ n).toNat = _
  rw [append_toNat, append_toNat, append_toNat, regNibble_toNat, regNibble_toNat]
  omega

theorem wordOfBytes_toNat (hi lo : Byte) : (wordOfBytes hi lo).toNat = hi.toNat * 256 + lo.toNat :=
  append_toNat hi lo

/-- A word is the word of its two bytes (R75). -/
theorem wordOfBytes_bytes (w : Word) : wordOfBytes (highByteOf w) (lowByteOf w) = w := by
  apply BitVec.eq_of_toNat_eq
  rw [wordOfBytes_toNat, highByteOf_toNat, lowByteOf_toNat]
  have := w.isLt
  omega

/-! The fields of the encoder's words. -/

@[simp] theorem fieldOp_asmNnn (op : Nibble) (nnn : Addr12) : fieldOp (asmNnn op nnn) = op := by
  apply BitVec.eq_of_toNat_eq
  rw [fieldOp_toNat, asmNnn_toNat]
  have := op.isLt
  have := nnn.isLt
  omega

@[simp] theorem fieldNnn_asmNnn (op : Nibble) (nnn : Addr12) : fieldNnn (asmNnn op nnn) = nnn := by
  apply BitVec.eq_of_toNat_eq
  rw [fieldNnn_toNat, asmNnn_toNat]
  have := nnn.isLt
  omega

@[simp] theorem fieldKk_asmNnn (op : Nibble) (nnn : Addr12) : fieldKk (asmNnn op nnn) = lowByte nnn := by
  apply BitVec.eq_of_toNat_eq
  rw [fieldKk_toNat, asmNnn_toNat, lowByte_toNat]
  omega

@[simp] theorem fieldOp_asmXkk (op : Nibble) (x : Reg) (kk : Byte) : fieldOp (asmXkk op x kk) = op := by
  apply BitVec.eq_of_toNat_eq
  rw [fieldOp_toNat, asmXkk_toNat]
  have := op.isLt
  have := x.isLt
  have := kk.isLt
  omega

@[simp] theorem fieldX_asmXkk (op : Nibble) (x : Reg) (kk : Byte) : fieldX (asmXkk op x kk) = x := by
  apply Fin.ext
  rw [fieldX_val, asmXkk_toNat]
  have := x.isLt
  have := kk.isLt
  omega

@[simp] theorem fieldKk_asmXkk (op : Nibble) (x : Reg) (kk : Byte) : fieldKk (asmXkk op x kk) = kk := by
  apply BitVec.eq_of_toNat_eq
  rw [fieldKk_toNat, asmXkk_toNat]
  have := kk.isLt
  omega

@[simp] theorem fieldOp_asmXyn (op : Nibble) (x y : Reg) (n : Nibble) : fieldOp (asmXyn op x y n) = op := by
  apply BitVec.eq_of_toNat_eq
  rw [fieldOp_toNat, asmXyn_toNat]
  have := op.isLt
  have := x.isLt
  have := y.isLt
  have := n.isLt
  omega

@[simp] theorem fieldX_asmXyn (op : Nibble) (x y : Reg) (n : Nibble) : fieldX (asmXyn op x y n) = x := by
  apply Fin.ext
  rw [fieldX_val, asmXyn_toNat]
  have := x.isLt
  have := y.isLt
  have := n.isLt
  omega

@[simp] theorem fieldY_asmXyn (op : Nibble) (x y : Reg) (n : Nibble) : fieldY (asmXyn op x y n) = y := by
  apply Fin.ext
  rw [fieldY_val, asmXyn_toNat]
  have := y.isLt
  have := n.isLt
  omega

@[simp] theorem fieldN_asmXyn (op : Nibble) (x y : Reg) (n : Nibble) : fieldN (asmXyn op x y n) = n := by
  apply BitVec.eq_of_toNat_eq
  rw [fieldN_toNat, asmXyn_toNat]
  have := n.isLt
  omega

end Sys2Proof
end

