-- ==== Sys2Proof/Laws/State.lean ====
section
/-! SUPPORT. One lemma for each field and each update of the state, true by rfl, and the reads through each update. -/

namespace Sys2Proof.Machine

variable (s : State)

/-! setV -/

@[simp] theorem State.setV_cfg (r : Reg) (b : Byte) : (s.setV r b).cfg = s.cfg := rfl
@[simp] theorem State.setV_mem (r : Reg) (b : Byte) : (s.setV r b).mem = s.mem := rfl
@[simp] theorem State.setV_v (r : Reg) (b : Byte) : (s.setV r b).v = s.v.set r.val b := rfl
@[simp] theorem State.setV_index (r : Reg) (b : Byte) : (s.setV r b).index = s.index := rfl
@[simp] theorem State.setV_pc (r : Reg) (b : Byte) : (s.setV r b).pc = s.pc := rfl
@[simp] theorem State.setV_stack (r : Reg) (b : Byte) : (s.setV r b).stack = s.stack := rfl
@[simp] theorem State.setV_sp (r : Reg) (b : Byte) : (s.setV r b).sp = s.sp := rfl
@[simp] theorem State.setV_dt (r : Reg) (b : Byte) : (s.setV r b).dt = s.dt := rfl
@[simp] theorem State.setV_st (r : Reg) (b : Byte) : (s.setV r b).st = s.st := rfl
@[simp] theorem State.setV_key (r : Reg) (b : Byte) : (s.setV r b).key = s.key := rfl
@[simp] theorem State.setV_fb (r : Reg) (b : Byte) : (s.setV r b).fb = s.fb := rfl
@[simp] theorem State.setV_dirty (r : Reg) (b : Byte) : (s.setV r b).dirty = s.dirty := rfl
@[simp] theorem State.setV_beep (r : Reg) (b : Byte) : (s.setV r b).beep = s.beep := rfl
@[simp] theorem State.setV_faultRecord (r : Reg) (b : Byte) : (s.setV r b).faultRecord = s.faultRecord := rfl
@[simp] theorem State.setV_diagLog (r : Reg) (b : Byte) : (s.setV r b).diagLog = s.diagLog := rfl
@[simp] theorem State.setV_draws (r : Reg) (b : Byte) : (s.setV r b).draws = s.draws := rfl
@[simp] theorem State.setV_getSlot (r : Reg) (b : Byte) (q : Fin 16) : (s.setV r b).getSlot q = s.getSlot q := rfl
@[simp] theorem State.setV_getKey (r : Reg) (b : Byte) (q : Fin 16) : (s.setV r b).getKey q = s.getKey q := rfl
@[simp] theorem State.setV_getCell (r : Reg) (b : Byte) (cx : Fin 64) (cy : Fin 32) : (s.setV r b).getCell cx cy = s.getCell cx cy := rfl
@[simp] theorem State.setV_byteAt (r : Reg) (b : Byte) (q : Nat) : (s.setV r b).byteAt q = s.byteAt q := rfl

/-! setIndex -/

@[simp] theorem State.setIndex_cfg (w : Word) : (s.setIndex w).cfg = s.cfg := rfl
@[simp] theorem State.setIndex_mem (w : Word) : (s.setIndex w).mem = s.mem := rfl
@[simp] theorem State.setIndex_v (w : Word) : (s.setIndex w).v = s.v := rfl
@[simp] theorem State.setIndex_index (w : Word) : (s.setIndex w).index = w := rfl
@[simp] theorem State.setIndex_pc (w : Word) : (s.setIndex w).pc = s.pc := rfl
@[simp] theorem State.setIndex_stack (w : Word) : (s.setIndex w).stack = s.stack := rfl
@[simp] theorem State.setIndex_sp (w : Word) : (s.setIndex w).sp = s.sp := rfl
@[simp] theorem State.setIndex_dt (w : Word) : (s.setIndex w).dt = s.dt := rfl
@[simp] theorem State.setIndex_st (w : Word) : (s.setIndex w).st = s.st := rfl
@[simp] theorem State.setIndex_key (w : Word) : (s.setIndex w).key = s.key := rfl
@[simp] theorem State.setIndex_fb (w : Word) : (s.setIndex w).fb = s.fb := rfl
@[simp] theorem State.setIndex_dirty (w : Word) : (s.setIndex w).dirty = s.dirty := rfl
@[simp] theorem State.setIndex_beep (w : Word) : (s.setIndex w).beep = s.beep := rfl
@[simp] theorem State.setIndex_faultRecord (w : Word) : (s.setIndex w).faultRecord = s.faultRecord := rfl
@[simp] theorem State.setIndex_diagLog (w : Word) : (s.setIndex w).diagLog = s.diagLog := rfl
@[simp] theorem State.setIndex_draws (w : Word) : (s.setIndex w).draws = s.draws := rfl
@[simp] theorem State.setIndex_getV (w : Word) (q : Reg) : (s.setIndex w).getV q = s.getV q := rfl
@[simp] theorem State.setIndex_getSlot (w : Word) (q : Fin 16) : (s.setIndex w).getSlot q = s.getSlot q := rfl
@[simp] theorem State.setIndex_getKey (w : Word) (q : Fin 16) : (s.setIndex w).getKey q = s.getKey q := rfl
@[simp] theorem State.setIndex_getCell (w : Word) (cx : Fin 64) (cy : Fin 32) : (s.setIndex w).getCell cx cy = s.getCell cx cy := rfl
@[simp] theorem State.setIndex_byteAt (w : Word) (q : Nat) : (s.setIndex w).byteAt q = s.byteAt q := rfl

/-! setPc -/

@[simp] theorem State.setPc_cfg (w : Word) : (s.setPc w).cfg = s.cfg := rfl
@[simp] theorem State.setPc_mem (w : Word) : (s.setPc w).mem = s.mem := rfl
@[simp] theorem State.setPc_v (w : Word) : (s.setPc w).v = s.v := rfl
@[simp] theorem State.setPc_index (w : Word) : (s.setPc w).index = s.index := rfl
@[simp] theorem State.setPc_pc (w : Word) : (s.setPc w).pc = w := rfl
@[simp] theorem State.setPc_stack (w : Word) : (s.setPc w).stack = s.stack := rfl
@[simp] theorem State.setPc_sp (w : Word) : (s.setPc w).sp = s.sp := rfl
@[simp] theorem State.setPc_dt (w : Word) : (s.setPc w).dt = s.dt := rfl
@[simp] theorem State.setPc_st (w : Word) : (s.setPc w).st = s.st := rfl
@[simp] theorem State.setPc_key (w : Word) : (s.setPc w).key = s.key := rfl
@[simp] theorem State.setPc_fb (w : Word) : (s.setPc w).fb = s.fb := rfl
@[simp] theorem State.setPc_dirty (w : Word) : (s.setPc w).dirty = s.dirty := rfl
@[simp] theorem State.setPc_beep (w : Word) : (s.setPc w).beep = s.beep := rfl
@[simp] theorem State.setPc_faultRecord (w : Word) : (s.setPc w).faultRecord = s.faultRecord := rfl
@[simp] theorem State.setPc_diagLog (w : Word) : (s.setPc w).diagLog = s.diagLog := rfl
@[simp] theorem State.setPc_draws (w : Word) : (s.setPc w).draws = s.draws := rfl
@[simp] theorem State.setPc_getV (w : Word) (q : Reg) : (s.setPc w).getV q = s.getV q := rfl
@[simp] theorem State.setPc_getSlot (w : Word) (q : Fin 16) : (s.setPc w).getSlot q = s.getSlot q := rfl
@[simp] theorem State.setPc_getKey (w : Word) (q : Fin 16) : (s.setPc w).getKey q = s.getKey q := rfl
@[simp] theorem State.setPc_getCell (w : Word) (cx : Fin 64) (cy : Fin 32) : (s.setPc w).getCell cx cy = s.getCell cx cy := rfl
@[simp] theorem State.setPc_byteAt (w : Word) (q : Nat) : (s.setPc w).byteAt q = s.byteAt q := rfl

/-! setSlot -/

@[simp] theorem State.setSlot_cfg (j : Fin 16) (w : Word) : (s.setSlot j w).cfg = s.cfg := rfl
@[simp] theorem State.setSlot_mem (j : Fin 16) (w : Word) : (s.setSlot j w).mem = s.mem := rfl
@[simp] theorem State.setSlot_v (j : Fin 16) (w : Word) : (s.setSlot j w).v = s.v := rfl
@[simp] theorem State.setSlot_index (j : Fin 16) (w : Word) : (s.setSlot j w).index = s.index := rfl
@[simp] theorem State.setSlot_pc (j : Fin 16) (w : Word) : (s.setSlot j w).pc = s.pc := rfl
@[simp] theorem State.setSlot_stack (j : Fin 16) (w : Word) : (s.setSlot j w).stack = s.stack.set j.val w := rfl
@[simp] theorem State.setSlot_sp (j : Fin 16) (w : Word) : (s.setSlot j w).sp = s.sp := rfl
@[simp] theorem State.setSlot_dt (j : Fin 16) (w : Word) : (s.setSlot j w).dt = s.dt := rfl
@[simp] theorem State.setSlot_st (j : Fin 16) (w : Word) : (s.setSlot j w).st = s.st := rfl
@[simp] theorem State.setSlot_key (j : Fin 16) (w : Word) : (s.setSlot j w).key = s.key := rfl
@[simp] theorem State.setSlot_fb (j : Fin 16) (w : Word) : (s.setSlot j w).fb = s.fb := rfl
@[simp] theorem State.setSlot_dirty (j : Fin 16) (w : Word) : (s.setSlot j w).dirty = s.dirty := rfl
@[simp] theorem State.setSlot_beep (j : Fin 16) (w : Word) : (s.setSlot j w).beep = s.beep := rfl
@[simp] theorem State.setSlot_faultRecord (j : Fin 16) (w : Word) : (s.setSlot j w).faultRecord = s.faultRecord := rfl
@[simp] theorem State.setSlot_diagLog (j : Fin 16) (w : Word) : (s.setSlot j w).diagLog = s.diagLog := rfl
@[simp] theorem State.setSlot_draws (j : Fin 16) (w : Word) : (s.setSlot j w).draws = s.draws := rfl
@[simp] theorem State.setSlot_getV (j : Fin 16) (w : Word) (q : Reg) : (s.setSlot j w).getV q = s.getV q := rfl
@[simp] theorem State.setSlot_getKey (j : Fin 16) (w : Word) (q : Fin 16) : (s.setSlot j w).getKey q = s.getKey q := rfl
@[simp] theorem State.setSlot_getCell (j : Fin 16) (w : Word) (cx : Fin 64) (cy : Fin 32) : (s.setSlot j w).getCell cx cy = s.getCell cx cy := rfl
@[simp] theorem State.setSlot_byteAt (j : Fin 16) (w : Word) (q : Nat) : (s.setSlot j w).byteAt q = s.byteAt q := rfl

/-! setSp -/

@[simp] theorem State.setSp_cfg (d : Fin 17) : (s.setSp d).cfg = s.cfg := rfl
@[simp] theorem State.setSp_mem (d : Fin 17) : (s.setSp d).mem = s.mem := rfl
@[simp] theorem State.setSp_v (d : Fin 17) : (s.setSp d).v = s.v := rfl
@[simp] theorem State.setSp_index (d : Fin 17) : (s.setSp d).index = s.index := rfl
@[simp] theorem State.setSp_pc (d : Fin 17) : (s.setSp d).pc = s.pc := rfl
@[simp] theorem State.setSp_stack (d : Fin 17) : (s.setSp d).stack = s.stack := rfl
@[simp] theorem State.setSp_sp (d : Fin 17) : (s.setSp d).sp = d := rfl
@[simp] theorem State.setSp_dt (d : Fin 17) : (s.setSp d).dt = s.dt := rfl
@[simp] theorem State.setSp_st (d : Fin 17) : (s.setSp d).st = s.st := rfl
@[simp] theorem State.setSp_key (d : Fin 17) : (s.setSp d).key = s.key := rfl
@[simp] theorem State.setSp_fb (d : Fin 17) : (s.setSp d).fb = s.fb := rfl
@[simp] theorem State.setSp_dirty (d : Fin 17) : (s.setSp d).dirty = s.dirty := rfl
@[simp] theorem State.setSp_beep (d : Fin 17) : (s.setSp d).beep = s.beep := rfl
@[simp] theorem State.setSp_faultRecord (d : Fin 17) : (s.setSp d).faultRecord = s.faultRecord := rfl
@[simp] theorem State.setSp_diagLog (d : Fin 17) : (s.setSp d).diagLog = s.diagLog := rfl
@[simp] theorem State.setSp_draws (d : Fin 17) : (s.setSp d).draws = s.draws := rfl
@[simp] theorem State.setSp_getV (d : Fin 17) (q : Reg) : (s.setSp d).getV q = s.getV q := rfl
@[simp] theorem State.setSp_getSlot (d : Fin 17) (q : Fin 16) : (s.setSp d).getSlot q = s.getSlot q := rfl
@[simp] theorem State.setSp_getKey (d : Fin 17) (q : Fin 16) : (s.setSp d).getKey q = s.getKey q := rfl
@[simp] theorem State.setSp_getCell (d : Fin 17) (cx : Fin 64) (cy : Fin 32) : (s.setSp d).getCell cx cy = s.getCell cx cy := rfl
@[simp] theorem State.setSp_byteAt (d : Fin 17) (q : Nat) : (s.setSp d).byteAt q = s.byteAt q := rfl

/-! setDt -/

@[simp] theorem State.setDt_cfg (b : Byte) : (s.setDt b).cfg = s.cfg := rfl
@[simp] theorem State.setDt_mem (b : Byte) : (s.setDt b).mem = s.mem := rfl
@[simp] theorem State.setDt_v (b : Byte) : (s.setDt b).v = s.v := rfl
@[simp] theorem State.setDt_index (b : Byte) : (s.setDt b).index = s.index := rfl
@[simp] theorem State.setDt_pc (b : Byte) : (s.setDt b).pc = s.pc := rfl
@[simp] theorem State.setDt_stack (b : Byte) : (s.setDt b).stack = s.stack := rfl
@[simp] theorem State.setDt_sp (b : Byte) : (s.setDt b).sp = s.sp := rfl
@[simp] theorem State.setDt_dt (b : Byte) : (s.setDt b).dt = b := rfl
@[simp] theorem State.setDt_st (b : Byte) : (s.setDt b).st = s.st := rfl
@[simp] theorem State.setDt_key (b : Byte) : (s.setDt b).key = s.key := rfl
@[simp] theorem State.setDt_fb (b : Byte) : (s.setDt b).fb = s.fb := rfl
@[simp] theorem State.setDt_dirty (b : Byte) : (s.setDt b).dirty = s.dirty := rfl
@[simp] theorem State.setDt_beep (b : Byte) : (s.setDt b).beep = s.beep := rfl
@[simp] theorem State.setDt_faultRecord (b : Byte) : (s.setDt b).faultRecord = s.faultRecord := rfl
@[simp] theorem State.setDt_diagLog (b : Byte) : (s.setDt b).diagLog = s.diagLog := rfl
@[simp] theorem State.setDt_draws (b : Byte) : (s.setDt b).draws = s.draws := rfl
@[simp] theorem State.setDt_getV (b : Byte) (q : Reg) : (s.setDt b).getV q = s.getV q := rfl
@[simp] theorem State.setDt_getSlot (b : Byte) (q : Fin 16) : (s.setDt b).getSlot q = s.getSlot q := rfl
@[simp] theorem State.setDt_getKey (b : Byte) (q : Fin 16) : (s.setDt b).getKey q = s.getKey q := rfl
@[simp] theorem State.setDt_getCell (b : Byte) (cx : Fin 64) (cy : Fin 32) : (s.setDt b).getCell cx cy = s.getCell cx cy := rfl
@[simp] theorem State.setDt_byteAt (b : Byte) (q : Nat) : (s.setDt b).byteAt q = s.byteAt q := rfl

/-! setSt -/

@[simp] theorem State.setSt_cfg (b : Byte) : (s.setSt b).cfg = s.cfg := rfl
@[simp] theorem State.setSt_mem (b : Byte) : (s.setSt b).mem = s.mem := rfl
@[simp] theorem State.setSt_v (b : Byte) : (s.setSt b).v = s.v := rfl
@[simp] theorem State.setSt_index (b : Byte) : (s.setSt b).index = s.index := rfl
@[simp] theorem State.setSt_pc (b : Byte) : (s.setSt b).pc = s.pc := rfl
@[simp] theorem State.setSt_stack (b : Byte) : (s.setSt b).stack = s.stack := rfl
@[simp] theorem State.setSt_sp (b : Byte) : (s.setSt b).sp = s.sp := rfl
@[simp] theorem State.setSt_dt (b : Byte) : (s.setSt b).dt = s.dt := rfl
@[simp] theorem State.setSt_st (b : Byte) : (s.setSt b).st = b := rfl
@[simp] theorem State.setSt_key (b : Byte) : (s.setSt b).key = s.key := rfl
@[simp] theorem State.setSt_fb (b : Byte) : (s.setSt b).fb = s.fb := rfl
@[simp] theorem State.setSt_dirty (b : Byte) : (s.setSt b).dirty = s.dirty := rfl
@[simp] theorem State.setSt_beep (b : Byte) : (s.setSt b).beep = s.beep := rfl
@[simp] theorem State.setSt_faultRecord (b : Byte) : (s.setSt b).faultRecord = s.faultRecord := rfl
@[simp] theorem State.setSt_diagLog (b : Byte) : (s.setSt b).diagLog = s.diagLog := rfl
@[simp] theorem State.setSt_draws (b : Byte) : (s.setSt b).draws = s.draws := rfl
@[simp] theorem State.setSt_getV (b : Byte) (q : Reg) : (s.setSt b).getV q = s.getV q := rfl
@[simp] theorem State.setSt_getSlot (b : Byte) (q : Fin 16) : (s.setSt b).getSlot q = s.getSlot q := rfl
@[simp] theorem State.setSt_getKey (b : Byte) (q : Fin 16) : (s.setSt b).getKey q = s.getKey q := rfl
@[simp] theorem State.setSt_getCell (b : Byte) (cx : Fin 64) (cy : Fin 32) : (s.setSt b).getCell cx cy = s.getCell cx cy := rfl
@[simp] theorem State.setSt_byteAt (b : Byte) (q : Nat) : (s.setSt b).byteAt q = s.byteAt q := rfl

/-! setKey -/

@[simp] theorem State.setKey_cfg (k : Fin 16) (b : Bool) : (s.setKey k b).cfg = s.cfg := rfl
@[simp] theorem State.setKey_mem (k : Fin 16) (b : Bool) : (s.setKey k b).mem = s.mem := rfl
@[simp] theorem State.setKey_v (k : Fin 16) (b : Bool) : (s.setKey k b).v = s.v := rfl
@[simp] theorem State.setKey_index (k : Fin 16) (b : Bool) : (s.setKey k b).index = s.index := rfl
@[simp] theorem State.setKey_pc (k : Fin 16) (b : Bool) : (s.setKey k b).pc = s.pc := rfl
@[simp] theorem State.setKey_stack (k : Fin 16) (b : Bool) : (s.setKey k b).stack = s.stack := rfl
@[simp] theorem State.setKey_sp (k : Fin 16) (b : Bool) : (s.setKey k b).sp = s.sp := rfl
@[simp] theorem State.setKey_dt (k : Fin 16) (b : Bool) : (s.setKey k b).dt = s.dt := rfl
@[simp] theorem State.setKey_st (k : Fin 16) (b : Bool) : (s.setKey k b).st = s.st := rfl
@[simp] theorem State.setKey_key (k : Fin 16) (b : Bool) : (s.setKey k b).key = s.key.set k.val b := rfl
@[simp] theorem State.setKey_fb (k : Fin 16) (b : Bool) : (s.setKey k b).fb = s.fb := rfl
@[simp] theorem State.setKey_dirty (k : Fin 16) (b : Bool) : (s.setKey k b).dirty = s.dirty := rfl
@[simp] theorem State.setKey_beep (k : Fin 16) (b : Bool) : (s.setKey k b).beep = s.beep := rfl
@[simp] theorem State.setKey_faultRecord (k : Fin 16) (b : Bool) : (s.setKey k b).faultRecord = s.faultRecord := rfl
@[simp] theorem State.setKey_diagLog (k : Fin 16) (b : Bool) : (s.setKey k b).diagLog = s.diagLog := rfl
@[simp] theorem State.setKey_draws (k : Fin 16) (b : Bool) : (s.setKey k b).draws = s.draws := rfl
@[simp] theorem State.setKey_getV (k : Fin 16) (b : Bool) (q : Reg) : (s.setKey k b).getV q = s.getV q := rfl
@[simp] theorem State.setKey_getSlot (k : Fin 16) (b : Bool) (q : Fin 16) : (s.setKey k b).getSlot q = s.getSlot q := rfl
@[simp] theorem State.setKey_getCell (k : Fin 16) (b : Bool) (cx : Fin 64) (cy : Fin 32) : (s.setKey k b).getCell cx cy = s.getCell cx cy := rfl
@[simp] theorem State.setKey_byteAt (k : Fin 16) (b : Bool) (q : Nat) : (s.setKey k b).byteAt q = s.byteAt q := rfl

/-! setCell -/

@[simp] theorem State.setCell_cfg (x : Fin 64) (y : Fin 32) (b : Bool) : (s.setCell x y b).cfg = s.cfg := rfl
@[simp] theorem State.setCell_mem (x : Fin 64) (y : Fin 32) (b : Bool) : (s.setCell x y b).mem = s.mem := rfl
@[simp] theorem State.setCell_v (x : Fin 64) (y : Fin 32) (b : Bool) : (s.setCell x y b).v = s.v := rfl
@[simp] theorem State.setCell_index (x : Fin 64) (y : Fin 32) (b : Bool) : (s.setCell x y b).index = s.index := rfl
@[simp] theorem State.setCell_pc (x : Fin 64) (y : Fin 32) (b : Bool) : (s.setCell x y b).pc = s.pc := rfl
@[simp] theorem State.setCell_stack (x : Fin 64) (y : Fin 32) (b : Bool) : (s.setCell x y b).stack = s.stack := rfl
@[simp] theorem State.setCell_sp (x : Fin 64) (y : Fin 32) (b : Bool) : (s.setCell x y b).sp = s.sp := rfl
@[simp] theorem State.setCell_dt (x : Fin 64) (y : Fin 32) (b : Bool) : (s.setCell x y b).dt = s.dt := rfl
@[simp] theorem State.setCell_st (x : Fin 64) (y : Fin 32) (b : Bool) : (s.setCell x y b).st = s.st := rfl
@[simp] theorem State.setCell_key (x : Fin 64) (y : Fin 32) (b : Bool) : (s.setCell x y b).key = s.key := rfl
@[simp] theorem State.setCell_dirty (x : Fin 64) (y : Fin 32) (b : Bool) : (s.setCell x y b).dirty = s.dirty := rfl
@[simp] theorem State.setCell_beep (x : Fin 64) (y : Fin 32) (b : Bool) : (s.setCell x y b).beep = s.beep := rfl
@[simp] theorem State.setCell_faultRecord (x : Fin 64) (y : Fin 32) (b : Bool) : (s.setCell x y b).faultRecord = s.faultRecord := rfl
@[simp] theorem State.setCell_diagLog (x : Fin 64) (y : Fin 32) (b : Bool) : (s.setCell x y b).diagLog = s.diagLog := rfl
@[simp] theorem State.setCell_draws (x : Fin 64) (y : Fin 32) (b : Bool) : (s.setCell x y b).draws = s.draws := rfl
@[simp] theorem State.setCell_getV (x : Fin 64) (y : Fin 32) (b : Bool) (q : Reg) : (s.setCell x y b).getV q = s.getV q := rfl
@[simp] theorem State.setCell_getSlot (x : Fin 64) (y : Fin 32) (b : Bool) (q : Fin 16) : (s.setCell x y b).getSlot q = s.getSlot q := rfl
@[simp] theorem State.setCell_getKey (x : Fin 64) (y : Fin 32) (b : Bool) (q : Fin 16) : (s.setCell x y b).getKey q = s.getKey q := rfl
@[simp] theorem State.setCell_byteAt (x : Fin 64) (y : Fin 32) (b : Bool) (q : Nat) : (s.setCell x y b).byteAt q = s.byteAt q := rfl

/-! setFb -/

@[simp] theorem State.setFb_cfg (g : Framebuffer) : (s.setFb g).cfg = s.cfg := rfl
@[simp] theorem State.setFb_mem (g : Framebuffer) : (s.setFb g).mem = s.mem := rfl
@[simp] theorem State.setFb_v (g : Framebuffer) : (s.setFb g).v = s.v := rfl
@[simp] theorem State.setFb_index (g : Framebuffer) : (s.setFb g).index = s.index := rfl
@[simp] theorem State.setFb_pc (g : Framebuffer) : (s.setFb g).pc = s.pc := rfl
@[simp] theorem State.setFb_stack (g : Framebuffer) : (s.setFb g).stack = s.stack := rfl
@[simp] theorem State.setFb_sp (g : Framebuffer) : (s.setFb g).sp = s.sp := rfl
@[simp] theorem State.setFb_dt (g : Framebuffer) : (s.setFb g).dt = s.dt := rfl
@[simp] theorem State.setFb_st (g : Framebuffer) : (s.setFb g).st = s.st := rfl
@[simp] theorem State.setFb_key (g : Framebuffer) : (s.setFb g).key = s.key := rfl
@[simp] theorem State.setFb_fb (g : Framebuffer) : (s.setFb g).fb = g := rfl
@[simp] theorem State.setFb_dirty (g : Framebuffer) : (s.setFb g).dirty = s.dirty := rfl
@[simp] theorem State.setFb_beep (g : Framebuffer) : (s.setFb g).beep = s.beep := rfl
@[simp] theorem State.setFb_faultRecord (g : Framebuffer) : (s.setFb g).faultRecord = s.faultRecord := rfl
@[simp] theorem State.setFb_diagLog (g : Framebuffer) : (s.setFb g).diagLog = s.diagLog := rfl
@[simp] theorem State.setFb_draws (g : Framebuffer) : (s.setFb g).draws = s.draws := rfl
@[simp] theorem State.setFb_getV (g : Framebuffer) (q : Reg) : (s.setFb g).getV q = s.getV q := rfl
@[simp] theorem State.setFb_getSlot (g : Framebuffer) (q : Fin 16) : (s.setFb g).getSlot q = s.getSlot q := rfl
@[simp] theorem State.setFb_getKey (g : Framebuffer) (q : Fin 16) : (s.setFb g).getKey q = s.getKey q := rfl
@[simp] theorem State.setFb_byteAt (g : Framebuffer) (q : Nat) : (s.setFb g).byteAt q = s.byteAt q := rfl

/-! setDirty -/

@[simp] theorem State.setDirty_cfg (b : Bool) : (s.setDirty b).cfg = s.cfg := rfl
@[simp] theorem State.setDirty_mem (b : Bool) : (s.setDirty b).mem = s.mem := rfl
@[simp] theorem State.setDirty_v (b : Bool) : (s.setDirty b).v = s.v := rfl
@[simp] theorem State.setDirty_index (b : Bool) : (s.setDirty b).index = s.index := rfl
@[simp] theorem State.setDirty_pc (b : Bool) : (s.setDirty b).pc = s.pc := rfl
@[simp] theorem State.setDirty_stack (b : Bool) : (s.setDirty b).stack = s.stack := rfl
@[simp] theorem State.setDirty_sp (b : Bool) : (s.setDirty b).sp = s.sp := rfl
@[simp] theorem State.setDirty_dt (b : Bool) : (s.setDirty b).dt = s.dt := rfl
@[simp] theorem State.setDirty_st (b : Bool) : (s.setDirty b).st = s.st := rfl
@[simp] theorem State.setDirty_key (b : Bool) : (s.setDirty b).key = s.key := rfl
@[simp] theorem State.setDirty_fb (b : Bool) : (s.setDirty b).fb = s.fb := rfl
@[simp] theorem State.setDirty_dirty (b : Bool) : (s.setDirty b).dirty = b := rfl
@[simp] theorem State.setDirty_beep (b : Bool) : (s.setDirty b).beep = s.beep := rfl
@[simp] theorem State.setDirty_faultRecord (b : Bool) : (s.setDirty b).faultRecord = s.faultRecord := rfl
@[simp] theorem State.setDirty_diagLog (b : Bool) : (s.setDirty b).diagLog = s.diagLog := rfl
@[simp] theorem State.setDirty_draws (b : Bool) : (s.setDirty b).draws = s.draws := rfl
@[simp] theorem State.setDirty_getV (b : Bool) (q : Reg) : (s.setDirty b).getV q = s.getV q := rfl
@[simp] theorem State.setDirty_getSlot (b : Bool) (q : Fin 16) : (s.setDirty b).getSlot q = s.getSlot q := rfl
@[simp] theorem State.setDirty_getKey (b : Bool) (q : Fin 16) : (s.setDirty b).getKey q = s.getKey q := rfl
@[simp] theorem State.setDirty_getCell (b : Bool) (cx : Fin 64) (cy : Fin 32) : (s.setDirty b).getCell cx cy = s.getCell cx cy := rfl
@[simp] theorem State.setDirty_byteAt (b : Bool) (q : Nat) : (s.setDirty b).byteAt q = s.byteAt q := rfl

/-! setBeep -/

@[simp] theorem State.setBeep_cfg (b : Bool) : (s.setBeep b).cfg = s.cfg := rfl
@[simp] theorem State.setBeep_mem (b : Bool) : (s.setBeep b).mem = s.mem := rfl
@[simp] theorem State.setBeep_v (b : Bool) : (s.setBeep b).v = s.v := rfl
@[simp] theorem State.setBeep_index (b : Bool) : (s.setBeep b).index = s.index := rfl
@[simp] theorem State.setBeep_pc (b : Bool) : (s.setBeep b).pc = s.pc := rfl
@[simp] theorem State.setBeep_stack (b : Bool) : (s.setBeep b).stack = s.stack := rfl
@[simp] theorem State.setBeep_sp (b : Bool) : (s.setBeep b).sp = s.sp := rfl
@[simp] theorem State.setBeep_dt (b : Bool) : (s.setBeep b).dt = s.dt := rfl
@[simp] theorem State.setBeep_st (b : Bool) : (s.setBeep b).st = s.st := rfl
@[simp] theorem State.setBeep_key (b : Bool) : (s.setBeep b).key = s.key := rfl
@[simp] theorem State.setBeep_fb (b : Bool) : (s.setBeep b).fb = s.fb := rfl
@[simp] theorem State.setBeep_dirty (b : Bool) : (s.setBeep b).dirty = s.dirty := rfl
@[simp] theorem State.setBeep_beep (b : Bool) : (s.setBeep b).beep = b := rfl
@[simp] theorem State.setBeep_faultRecord (b : Bool) : (s.setBeep b).faultRecord = s.faultRecord := rfl
@[simp] theorem State.setBeep_diagLog (b : Bool) : (s.setBeep b).diagLog = s.diagLog := rfl
@[simp] theorem State.setBeep_draws (b : Bool) : (s.setBeep b).draws = s.draws := rfl
@[simp] theorem State.setBeep_getV (b : Bool) (q : Reg) : (s.setBeep b).getV q = s.getV q := rfl
@[simp] theorem State.setBeep_getSlot (b : Bool) (q : Fin 16) : (s.setBeep b).getSlot q = s.getSlot q := rfl
@[simp] theorem State.setBeep_getKey (b : Bool) (q : Fin 16) : (s.setBeep b).getKey q = s.getKey q := rfl
@[simp] theorem State.setBeep_getCell (b : Bool) (cx : Fin 64) (cy : Fin 32) : (s.setBeep b).getCell cx cy = s.getCell cx cy := rfl
@[simp] theorem State.setBeep_byteAt (b : Bool) (q : Nat) : (s.setBeep b).byteAt q = s.byteAt q := rfl

/-! storeByte -/

@[simp] theorem State.storeByte_cfg (a : Nat) (b : Byte) : (s.storeByte a b).cfg = s.cfg := rfl
@[simp] theorem State.storeByte_mem (a : Nat) (b : Byte) : (s.storeByte a b).mem = Memory.store (resetByte s.cfg a) a b s.mem := rfl
@[simp] theorem State.storeByte_v (a : Nat) (b : Byte) : (s.storeByte a b).v = s.v := rfl
@[simp] theorem State.storeByte_index (a : Nat) (b : Byte) : (s.storeByte a b).index = s.index := rfl
@[simp] theorem State.storeByte_pc (a : Nat) (b : Byte) : (s.storeByte a b).pc = s.pc := rfl
@[simp] theorem State.storeByte_stack (a : Nat) (b : Byte) : (s.storeByte a b).stack = s.stack := rfl
@[simp] theorem State.storeByte_sp (a : Nat) (b : Byte) : (s.storeByte a b).sp = s.sp := rfl
@[simp] theorem State.storeByte_dt (a : Nat) (b : Byte) : (s.storeByte a b).dt = s.dt := rfl
@[simp] theorem State.storeByte_st (a : Nat) (b : Byte) : (s.storeByte a b).st = s.st := rfl
@[simp] theorem State.storeByte_key (a : Nat) (b : Byte) : (s.storeByte a b).key = s.key := rfl
@[simp] theorem State.storeByte_fb (a : Nat) (b : Byte) : (s.storeByte a b).fb = s.fb := rfl
@[simp] theorem State.storeByte_dirty (a : Nat) (b : Byte) : (s.storeByte a b).dirty = s.dirty := rfl
@[simp] theorem State.storeByte_beep (a : Nat) (b : Byte) : (s.storeByte a b).beep = s.beep := rfl
@[simp] theorem State.storeByte_faultRecord (a : Nat) (b : Byte) : (s.storeByte a b).faultRecord = s.faultRecord := rfl
@[simp] theorem State.storeByte_diagLog (a : Nat) (b : Byte) : (s.storeByte a b).diagLog = s.diagLog := rfl
@[simp] theorem State.storeByte_draws (a : Nat) (b : Byte) : (s.storeByte a b).draws = s.draws := rfl
@[simp] theorem State.storeByte_getV (a : Nat) (b : Byte) (q : Reg) : (s.storeByte a b).getV q = s.getV q := rfl
@[simp] theorem State.storeByte_getSlot (a : Nat) (b : Byte) (q : Fin 16) : (s.storeByte a b).getSlot q = s.getSlot q := rfl
@[simp] theorem State.storeByte_getKey (a : Nat) (b : Byte) (q : Fin 16) : (s.storeByte a b).getKey q = s.getKey q := rfl
@[simp] theorem State.storeByte_getCell (a : Nat) (b : Byte) (cx : Fin 64) (cy : Fin 32) : (s.storeByte a b).getCell cx cy = s.getCell cx cy := rfl

/-! countDraw -/

@[simp] theorem State.countDraw_cfg : (s.countDraw).cfg = s.cfg := rfl
@[simp] theorem State.countDraw_mem : (s.countDraw).mem = s.mem := rfl
@[simp] theorem State.countDraw_v : (s.countDraw).v = s.v := rfl
@[simp] theorem State.countDraw_index : (s.countDraw).index = s.index := rfl
@[simp] theorem State.countDraw_pc : (s.countDraw).pc = s.pc := rfl
@[simp] theorem State.countDraw_stack : (s.countDraw).stack = s.stack := rfl
@[simp] theorem State.countDraw_sp : (s.countDraw).sp = s.sp := rfl
@[simp] theorem State.countDraw_dt : (s.countDraw).dt = s.dt := rfl
@[simp] theorem State.countDraw_st : (s.countDraw).st = s.st := rfl
@[simp] theorem State.countDraw_key : (s.countDraw).key = s.key := rfl
@[simp] theorem State.countDraw_fb : (s.countDraw).fb = s.fb := rfl
@[simp] theorem State.countDraw_dirty : (s.countDraw).dirty = s.dirty := rfl
@[simp] theorem State.countDraw_beep : (s.countDraw).beep = s.beep := rfl
@[simp] theorem State.countDraw_faultRecord : (s.countDraw).faultRecord = s.faultRecord := rfl
@[simp] theorem State.countDraw_diagLog : (s.countDraw).diagLog = s.diagLog := rfl
@[simp] theorem State.countDraw_draws : (s.countDraw).draws = s.draws + 1 := rfl
@[simp] theorem State.countDraw_getV (q : Reg) : (s.countDraw).getV q = s.getV q := rfl
@[simp] theorem State.countDraw_getSlot (q : Fin 16) : (s.countDraw).getSlot q = s.getSlot q := rfl
@[simp] theorem State.countDraw_getKey (q : Fin 16) : (s.countDraw).getKey q = s.getKey q := rfl
@[simp] theorem State.countDraw_getCell (cx : Fin 64) (cy : Fin 32) : (s.countDraw).getCell cx cy = s.getCell cx cy := rfl
@[simp] theorem State.countDraw_byteAt (q : Nat) : (s.countDraw).byteAt q = s.byteAt q := rfl

/-! takeFault -/

@[simp] theorem takeFault_cfg (f : CpuFault) : (takeFault f s).cfg = s.cfg := rfl
@[simp] theorem takeFault_mem (f : CpuFault) : (takeFault f s).mem = s.mem := rfl
@[simp] theorem takeFault_v (f : CpuFault) : (takeFault f s).v = s.v := rfl
@[simp] theorem takeFault_index (f : CpuFault) : (takeFault f s).index = s.index := rfl
@[simp] theorem takeFault_pc (f : CpuFault) : (takeFault f s).pc = s.pc := rfl
@[simp] theorem takeFault_stack (f : CpuFault) : (takeFault f s).stack = s.stack := rfl
@[simp] theorem takeFault_sp (f : CpuFault) : (takeFault f s).sp = s.sp := rfl
@[simp] theorem takeFault_dt (f : CpuFault) : (takeFault f s).dt = s.dt := rfl
@[simp] theorem takeFault_st (f : CpuFault) : (takeFault f s).st = s.st := rfl
@[simp] theorem takeFault_key (f : CpuFault) : (takeFault f s).key = s.key := rfl
@[simp] theorem takeFault_fb (f : CpuFault) : (takeFault f s).fb = s.fb := rfl
@[simp] theorem takeFault_dirty (f : CpuFault) : (takeFault f s).dirty = s.dirty := rfl
@[simp] theorem takeFault_beep (f : CpuFault) : (takeFault f s).beep = s.beep := rfl
@[simp] theorem takeFault_faultRecord (f : CpuFault) : (takeFault f s).faultRecord = s.faultRecord ++ [.entry f] := rfl
@[simp] theorem takeFault_diagLog (f : CpuFault) : (takeFault f s).diagLog = s.diagLog := rfl
@[simp] theorem takeFault_draws (f : CpuFault) : (takeFault f s).draws = s.draws := rfl
@[simp] theorem takeFault_getV (f : CpuFault) (q : Reg) : (takeFault f s).getV q = s.getV q := rfl
@[simp] theorem takeFault_getSlot (f : CpuFault) (q : Fin 16) : (takeFault f s).getSlot q = s.getSlot q := rfl
@[simp] theorem takeFault_getKey (f : CpuFault) (q : Fin 16) : (takeFault f s).getKey q = s.getKey q := rfl
@[simp] theorem takeFault_getCell (f : CpuFault) (cx : Fin 64) (cy : Fin 32) : (takeFault f s).getCell cx cy = s.getCell cx cy := rfl
@[simp] theorem takeFault_byteAt (f : CpuFault) (q : Nat) : (takeFault f s).byteAt q = s.byteAt q := rfl

/-! reportUnknown -/

@[simp] theorem reportUnknown_cfg (w p : Word) : (reportUnknown w p s).cfg = s.cfg := rfl
@[simp] theorem reportUnknown_mem (w p : Word) : (reportUnknown w p s).mem = s.mem := rfl
@[simp] theorem reportUnknown_v (w p : Word) : (reportUnknown w p s).v = s.v := rfl
@[simp] theorem reportUnknown_index (w p : Word) : (reportUnknown w p s).index = s.index := rfl
@[simp] theorem reportUnknown_pc (w p : Word) : (reportUnknown w p s).pc = s.pc := rfl
@[simp] theorem reportUnknown_stack (w p : Word) : (reportUnknown w p s).stack = s.stack := rfl
@[simp] theorem reportUnknown_sp (w p : Word) : (reportUnknown w p s).sp = s.sp := rfl
@[simp] theorem reportUnknown_dt (w p : Word) : (reportUnknown w p s).dt = s.dt := rfl
@[simp] theorem reportUnknown_st (w p : Word) : (reportUnknown w p s).st = s.st := rfl
@[simp] theorem reportUnknown_key (w p : Word) : (reportUnknown w p s).key = s.key := rfl
@[simp] theorem reportUnknown_fb (w p : Word) : (reportUnknown w p s).fb = s.fb := rfl
@[simp] theorem reportUnknown_dirty (w p : Word) : (reportUnknown w p s).dirty = s.dirty := rfl
@[simp] theorem reportUnknown_beep (w p : Word) : (reportUnknown w p s).beep = s.beep := rfl
@[simp] theorem reportUnknown_faultRecord (w p : Word) : (reportUnknown w p s).faultRecord = s.faultRecord := rfl
@[simp] theorem reportUnknown_diagLog (w p : Word) : (reportUnknown w p s).diagLog = s.diagLog ++ [.entry (.unknownInstruction w p)] := rfl
@[simp] theorem reportUnknown_draws (w p : Word) : (reportUnknown w p s).draws = s.draws := rfl
@[simp] theorem reportUnknown_getV (w p : Word) (q : Reg) : (reportUnknown w p s).getV q = s.getV q := rfl
@[simp] theorem reportUnknown_getSlot (w p : Word) (q : Fin 16) : (reportUnknown w p s).getSlot q = s.getSlot q := rfl
@[simp] theorem reportUnknown_getKey (w p : Word) (q : Fin 16) : (reportUnknown w p s).getKey q = s.getKey q := rfl
@[simp] theorem reportUnknown_getCell (w p : Word) (cx : Fin 64) (cy : Fin 32) : (reportUnknown w p s).getCell cx cy = s.getCell cx cy := rfl
@[simp] theorem reportUnknown_byteAt (w p : Word) (q : Nat) : (reportUnknown w p s).byteAt q = s.byteAt q := rfl

/-! Reads of the piece an update writes. -/

@[simp] theorem State.getV_setV (x r : Reg) (b : Byte) : (s.setV x b).getV r = if x = r then b else s.getV r := by
  simp only [State.getV, State.setV, Vector.getElem_set, Fin.val_inj]

@[simp] theorem State.getSlot_setSlot (i j : Fin 16) (w : Word) :
    (s.setSlot i w).getSlot j = if i = j then w else s.getSlot j := by
  simp only [State.getSlot, State.setSlot, Vector.getElem_set, Fin.val_inj]

@[simp] theorem State.getKey_setKey (i j : Fin 16) (b : Bool) :
    (s.setKey i b).getKey j = if i = j then b else s.getKey j := by
  simp only [State.getKey, State.setKey, Vector.getElem_set, Fin.val_inj]

@[simp] theorem State.getCell_setCell (x x' : Fin 64) (y y' : Fin 32) (b : Bool) :
    (s.setCell x y b).getCell x' y' = if x = x' ∧ y = y' then b else s.getCell x' y' := by
  simp only [State.getCell, State.setCell, cellOf, Vector.getElem_set]
  by_cases hy : y = y'
  · subst hy; simp [Vector.getElem_set, Fin.val_inj]
  · simp [hy, Fin.val_inj]

@[simp] theorem State.getCell_setFb (g : Framebuffer) (x : Fin 64) (y : Fin 32) :
    (s.setFb g).getCell x y = cellOf g x y := rfl

@[simp] theorem cellOf_blankFb (x : Fin 64) (y : Fin 32) : cellOf blankFb x y = false := by
  simp [cellOf, blankFb]

end Sys2Proof.Machine
end

