-- ==== Sys2Proof/Laws/Memory.lean ====
section
/-! SUPPORT. The laws of memory: a read after a write, and that every operation keeps the canonical form. -/

namespace Sys2Proof.Machine

theorem Memory.find_remove (a b : Nat) (m : Memory) :
    Memory.find b (Memory.remove a m) = if a = b then none else Memory.find b m := by
  induction m with
  | nil => simp [Memory.remove, Memory.find]
  | cons e rest ih =>
    obtain ⟨c, u⟩ := e
    by_cases hac : a = c
    · subst hac
      simp only [Memory.remove, if_true, ih, Memory.find]
      split <;> simp_all [eq_comm]
    · simp only [Memory.remove, if_neg hac, Memory.find, ih]
      split <;> simp_all

theorem Memory.find_insert (a b : Nat) (v : Byte) (m : Memory) (h : Memory.find a m = none) :
    Memory.find b (Memory.insert a v m) = if a = b then some v else Memory.find b m := by
  induction m with
  | nil => simp [Memory.insert, Memory.find, eq_comm]
  | cons e rest ih =>
    obtain ⟨c, u⟩ := e
    simp only [Memory.find] at h
    split at h
    · cases h
    · simp only [Memory.insert]
      split
      · simp only [Memory.find, eq_comm]
      · simp only [Memory.find, ih h]
        split <;> simp_all

/-- A read after a write, on any list. -/
theorem Memory.byteAt_store (c : Cfg) (a b : Nat) (v : Byte) (m : Memory) :
    Memory.byteAt c (Memory.store (resetByte c a) a v m) b = if a = b then v else Memory.byteAt c m b := by
  unfold Memory.byteAt Memory.store
  by_cases hv : v = resetByte c a
  · simp only [if_pos hv, Memory.find_remove]
    split
    · rename_i h; simp [← h, hv]
    · rfl
  · simp only [if_neg hv]
    rw [Memory.find_insert _ _ _ _ (by simp [Memory.find_remove])]
    split
    · rfl
    · rename_i h; simp [Memory.find_remove, h]

@[simp] theorem State.byteAt_storeByte (s : State) (a b : Nat) (v : Byte) :
    (s.storeByte a v).byteAt b = if a = b then v else s.byteAt b :=
  Memory.byteAt_store s.cfg a b v s.mem

/-! The canonical form. -/

theorem Memory.wfFrom_mono (c : Cfg) {lo lo' : Nat} (h : lo' ≤ lo) (m : Memory) (hm : Memory.wfFrom c lo m = true) :
    Memory.wfFrom c lo' m = true := by
  cases m with
  | nil => rfl
  | cons e rest =>
    obtain ⟨a, v⟩ := e
    simp only [Memory.wfFrom, Bool.and_eq_true, decide_eq_true_eq] at hm ⊢
    exact ⟨⟨⟨by omega, hm.1.1.2⟩, hm.1.2⟩, hm.2⟩

theorem Memory.wfFrom_remove (c : Cfg) (a lo : Nat) (m : Memory) (hm : Memory.wfFrom c lo m = true) :
    Memory.wfFrom c lo (Memory.remove a m) = true := by
  induction m generalizing lo with
  | nil => rfl
  | cons e rest ih =>
    obtain ⟨b, u⟩ := e
    simp only [Memory.wfFrom, Bool.and_eq_true, decide_eq_true_eq] at hm
    simp only [Memory.remove]
    split
    · exact Memory.wfFrom_mono c (by omega) _ (ih _ hm.2)
    · simp only [Memory.wfFrom, Bool.and_eq_true, decide_eq_true_eq]
      exact ⟨hm.1, ih _ hm.2⟩

theorem Memory.wfFrom_insert (c : Cfg) (a lo : Nat) (v : Byte) (m : Memory) (hlo : lo ≤ a) (ha : a < Config.memSize)
    (hv : v ≠ resetByte c a) (hm : Memory.wfFrom c lo m = true) (hf : Memory.find a m = none) :
    Memory.wfFrom c lo (Memory.insert a v m) = true := by
  induction m generalizing lo with
  | nil => simp [Memory.insert, Memory.wfFrom, hlo, ha, hv]
  | cons e rest ih =>
    obtain ⟨b, u⟩ := e
    simp only [Memory.wfFrom, Bool.and_eq_true, decide_eq_true_eq] at hm
    simp only [Memory.find] at hf
    split at hf
    · cases hf
    · rename_i hab
      simp only [Memory.insert]
      split
      · simp only [Memory.wfFrom, Bool.and_eq_true, decide_eq_true_eq, bne_iff_ne]
        exact ⟨⟨⟨hlo, ha⟩, hv⟩, ⟨⟨by omega, hm.1.1.2⟩, by simpa using hm.1.2⟩, hm.2⟩
      · simp only [Memory.wfFrom, Bool.and_eq_true, decide_eq_true_eq]
        exact ⟨hm.1, ih (b + 1) (by omega) hm.2 hf⟩

/-- A write to an address that exists keeps the canonical form. -/
theorem Memory.wf_store (c : Cfg) (a : Nat) (v : Byte) (m : Memory) (ha : a < Config.memSize)
    (hm : Memory.wf c m = true) : Memory.wf c (Memory.store (resetByte c a) a v m) = true := by
  unfold Memory.store Memory.wf
  split
  · exact Memory.wfFrom_remove c a 0 m hm
  · rename_i hv
    exact Memory.wfFrom_insert c a 0 v _ (Nat.zero_le a) ha hv (Memory.wfFrom_remove c a 0 m hm)
      (by simp [Memory.find_remove])

/-- Equal readings make equal canonical memories. -/
theorem Memory.find_none_of_wfFrom (c : Cfg) (a lo : Nat) (m : Memory) (hm : Memory.wfFrom c lo m = true)
    (h : a < lo) : Memory.find a m = none := by
  induction m generalizing lo with
  | nil => rfl
  | cons e rest ih =>
    obtain ⟨b, u⟩ := e
    simp only [Memory.wfFrom, Bool.and_eq_true, decide_eq_true_eq] at hm
    simp only [Memory.find]
    split
    · omega
    · exact ih _ hm.2 (by omega)

theorem State.initial_mem_wf (c : Cfg) : Memory.wf c (State.initial c).mem = true := rfl

/-! The reset contents (R270). -/

theorem resetByte_glyph (c : Cfg) (d : Nat) (h : d < 80) : resetByte c (c.fontBase.toNat + d) = c.glyphs[d] := by
  unfold resetByte
  rw [dif_pos (by omega)]
  simp

theorem resetByte_outside (c : Cfg) (a : Nat) (h : a < c.fontBase.toNat ∨ c.fontBase.toNat + 80 ≤ a) :
    resetByte c a = 0#8 := by
  unfold resetByte
  rw [dif_neg (by omega)]

@[simp] theorem State.byteAt_initial (c : Cfg) (a : Nat) : (State.initial c).byteAt a = resetByte c a := rfl

/-! memRead and memWrite. -/

theorem memRead_ok (s : State) {a : Nat} (h : a ≤ 0xFFF) : memRead s a = .ok (s.byteAt a) := by
  simp [memRead]; omega

theorem memRead_error (s : State) {a : Nat} (h : 0xFFF < a) : memRead s a = .error (.addressOutOfRange a) := by
  simp [memRead]; omega

theorem memWrite_ok (s : State) {a : Nat} (v : Byte) (h : a ≤ 0xFFF) : memWrite s a v = .ok (s.storeByte a v) := by
  simp [memWrite]; omega

theorem memWrite_error (s : State) {a : Nat} (v : Byte) (h : 0xFFF < a) :
    memWrite s a v = .error (.addressOutOfRange a) := by
  simp [memWrite]; omega

end Sys2Proof.Machine
end

