-- ==== Sys2Proof/Laws/Ops.lean ====
section
/-! SUPPORT. One lemma for each shared operation that says everything it can do; proofs cite these instead of
unfolding the operation. -/

namespace Sys2Proof.Machine

/-! Frames. -/

theorem Keeps.refl (c : Changes) (s : State) : Keeps c s s := by
  constructor <;> intros <;> rfl

theorem Keeps.trans {c : Changes} {s t u : State} (h₁ : Keeps c s t) (h₂ : Keeps c t u) : Keeps c s u where
  cfg := h₂.cfg.trans h₁.cfg
  mem a h := (h₂.mem a h).trans (h₁.mem a h)
  v r h := (h₂.v r h).trans (h₁.v r h)
  index h := (h₂.index h).trans (h₁.index h)
  pc h := (h₂.pc h).trans (h₁.pc h)
  slot j h := (h₂.slot j h).trans (h₁.slot j h)
  sp h := (h₂.sp h).trans (h₁.sp h)
  dt h := (h₂.dt h).trans (h₁.dt h)
  st h := (h₂.st h).trans (h₁.st h)
  key k h := (h₂.key k h).trans (h₁.key k h)
  cell x y h := (h₂.cell x y h).trans (h₁.cell x y h)
  dirty h := (h₂.dirty h).trans (h₁.dirty h)
  beep h := (h₂.beep h).trans (h₁.beep h)
  faultRecord h := (h₂.faultRecord h).trans (h₁.faultRecord h)
  diagLog h := (h₂.diagLog h).trans (h₁.diagLog h)
  draws h := (h₂.draws h).trans (h₁.draws h)

/-- A byte store changes one byte. -/
theorem keeps_storeByte (s : State) (a : Nat) (b : Byte) : Keeps { mem := fun q => q = a } s (s.storeByte a b) where
  cfg := rfl
  mem q h := by simp only [State.byteAt_storeByte]; rw [if_neg fun e => h e.symm]
  v _ _ := rfl
  index _ := rfl
  pc _ := rfl
  slot _ _ := rfl
  sp _ := rfl
  dt _ := rfl
  st _ := rfl
  key _ _ := rfl
  cell _ _ _ := rfl
  dirty _ := rfl
  beep _ := rfl
  faultRecord _ := rfl
  diagLog _ := rfl
  draws _ := rfl

/-- A register write changes one register. -/
theorem keeps_setV (s : State) (r : Reg) (b : Byte) : Keeps { v := fun q => q = r } s (s.setV r b) where
  cfg := rfl
  mem _ _ := rfl
  v q h := by simp only [State.getV_setV]; rw [if_neg fun e => h e.symm]
  index _ := rfl
  pc _ := rfl
  slot _ _ := rfl
  sp _ := rfl
  dt _ := rfl
  st _ := rfl
  key _ _ := rfl
  cell _ _ _ := rfl
  dirty _ := rfl
  beep _ := rfl
  faultRecord _ := rfl
  diagLog _ := rfl
  draws _ := rfl

/-! Writing bytes. -/

/-- The bytes at base .. base + length - 1 of t, everything else as in s: what writing a block can do. -/
structure Wrote (base : Nat) (bs : List Byte) (s t : State) : Prop where
  rest : t = { s with mem := t.mem }
  inside : ∀ k (h : k < bs.length), t.byteAt (base + k) = bs[k]
  outside : ∀ a, (a < base ∨ base + bs.length ≤ a) → t.byteAt a = s.byteAt a
  wf : base + bs.length ≤ Config.memSize → Memory.wf s.cfg s.mem = true → Memory.wf t.cfg t.mem = true

theorem wrote_nil (base : Nat) (s : State) : Wrote base [] s s :=
  ⟨rfl, by simp, by simp, fun _ h => h⟩

theorem wrote_cons {base : Nat} {b : Byte} {bs : List Byte} {s t : State}
    (h : Wrote (base + 1) bs (s.storeByte base b) t) : Wrote base (b :: bs) s t where
  rest := by
    have := h.rest
    rw [this]
    rfl
  inside k hk := by
    cases k with
    | zero =>
      have := h.outside base (Or.inl (by omega))
      simpa using this
    | succ k =>
      have := h.inside k (by simpa using hk)
      rw [show base + (k + 1) = base + 1 + k by omega, this]
      rfl
  outside a ha := by
    rw [h.outside a (by simp only [List.length_cons] at ha; omega)]
    simp only [State.byteAt_storeByte, List.length_cons] at ha ⊢
    rw [if_neg (by omega)]
  wf hb hs := by
    simp only [List.length_cons] at hb
    exact h.wf (by omega) (Memory.wf_store _ _ _ _ (by simp only [Config.memSize] at *; omega) hs)

/-- A block that fits is written (R72, R77). -/
theorem writeBytes_ok (base : Nat) (bs : List Byte) (s : State) (h : bs = [] ∨ base + bs.length ≤ 0x1000) :
    ∃ t, writeBytes base bs s = .ok t ∧ Wrote base bs s t := by
  induction bs generalizing base s with
  | nil => exact ⟨s, rfl, wrote_nil base s⟩
  | cons b bs ih =>
    simp only [List.length_cons, reduceCtorEq, false_or] at h
    obtain ⟨t, ht, hw⟩ := ih (base + 1) (s.storeByte base b) (Or.inr (by omega))
    exact ⟨t, by simp only [writeBytes, memWrite_ok s b (show base ≤ 0xFFF by omega), ht], wrote_cons hw⟩

/-- A block that runs past 0xFFF faults at the first address that does not exist (R232). -/
theorem writeBytes_error (base : Nat) (bs : List Byte) (s : State) (hne : bs ≠ []) (h : 0x1000 < base + bs.length) :
    writeBytes base bs s = .error (.addressOutOfRange (max base 0x1000)) := by
  induction bs generalizing base s with
  | nil => exact absurd rfl hne
  | cons b bs ih =>
    simp only [List.length_cons] at h
    simp only [writeBytes]
    by_cases hb : base ≤ 0xFFF
    · rw [memWrite_ok s b hb]
      have hne' : bs ≠ [] := by rintro rfl; simp at h; exact absurd hb (by omega)
      simp only [ih (base + 1) (s.storeByte base b) hne' (by omega)]
      congr 2
      omega
    · rw [memWrite_error s b (by omega)]
      simp only []
      congr 2
      omega

/-- The host's load writes its bytes (R79). -/
theorem storeBytes_wrote (base : Nat) (bs : List Byte) (s : State) : Wrote base bs s (storeBytes base bs s) := by
  induction bs generalizing base s with
  | nil => exact wrote_nil base s
  | cons b bs ih => exact wrote_cons (ih (base + 1) (s.storeByte base b))

/-- Every byte of memory after a block is written. -/
theorem Wrote.byteAt_eq {base : Nat} {bs : List Byte} {s t : State} (h : Wrote base bs s t) (a : Nat) :
    t.byteAt a = byteAfterStore s base bs a := by
  unfold byteAfterStore
  split
  · rename_i hle
    by_cases ha : a - base < bs.length
    · have := h.inside (a - base) ha
      rw [show base + (a - base) = a by omega] at this
      simp [this, ha]
    · rw [h.outside a (Or.inr (by omega)), List.getElem?_eq_none (by omega)]
      rfl
  · exact h.outside a (Or.inl (by omega))

/-! The register block of a dump. -/

theorem regBlock_length (s : State) (x : Reg) : (regBlock s x).length = x.val + 1 := by
  simp [regBlock]

theorem regBlock_getElem (s : State) (x : Reg) (k : Nat) (h : k < (regBlock s x).length) (hk : k < 16) :
    (regBlock s x)[k] = s.getV ⟨k, hk⟩ := by
  simp [regBlock, State.getV]

/-! Loading registers. -/

/-- Registers 0 .. count - 1 of t hold the bytes from base on, everything else as in s. -/
structure Loaded (base count : Nat) (s t : State) : Prop where
  rest : t = { s with v := t.v }
  inside : ∀ r : Reg, r.val < count → t.getV r = s.byteAt (base + r.val)
  outside : ∀ r : Reg, count ≤ r.val → t.getV r = s.getV r

theorem loadRegs_ok (base count : Nat) (s : State) (hc : count ≤ 16) (h : count = 0 ∨ base + count ≤ 0x1000) :
    ∃ t, loadRegs base count s = .ok t ∧ Loaded base count s t := by
  induction count with
  | zero => exact ⟨s, rfl, rfl, by simp, by simp⟩
  | succ k ih =>
    obtain ⟨t, ht, hl⟩ := ih (by omega) (by omega)
    have hmem : t.byteAt (base + k) = s.byteAt (base + k) := by rw [hl.rest]; rfl
    refine ⟨t.setV (Fin.ofNat 16 k) (s.byteAt (base + k)), ?_, ?_, ?_, ?_⟩
    · simp only [loadRegs, ht, memRead_ok t (show base + k ≤ 0xFFF by omega), hmem]
    · rw [hl.rest]; rfl
    · intro r hr
      simp only [State.getV_setV]
      split
      · rename_i e; subst e; simp [Nat.mod_eq_of_lt (show k < 16 by omega)]
      · rename_i e
        refine hl.inside r ?_
        have : r.val ≠ k := fun e' => e (Fin.ext (by simp [Nat.mod_eq_of_lt (show k < 16 by omega), e']))
        omega
    · intro r hr
      simp only [State.getV_setV]
      rw [if_neg, hl.outside r (by omega)]
      rintro e
      have := congrArg Fin.val e
      simp [Nat.mod_eq_of_lt (show k < 16 by omega)] at this
      omega

theorem loadRegs_error (base count : Nat) (s : State) (hc : count ≤ 16) (h0 : count ≠ 0)
    (h : 0x1000 < base + count) : loadRegs base count s = .error (.addressOutOfRange (max base 0x1000)) := by
  induction count with
  | zero => exact absurd rfl h0
  | succ k ih =>
    by_cases hk : k = 0 ∨ base + k ≤ 0x1000
    · obtain ⟨t, ht, -⟩ := loadRegs_ok base k s (by omega) hk
      simp only [loadRegs, ht, memRead_error t (show 0xFFF < base + k by omega)]
      congr 2
      omega
    · have := ih (by omega) (by omega) (by omega)
      simp only [loadRegs, this]

/-! The free values after a fault (R237). -/

theorem keeps_scrambleBytes (d base count : Nat) (s : State) :
    Keeps { mem := fun a => base ≤ a ∧ a < base + count ∧ a ≤ 0xFFF } s (scrambleBytes d base count s) := by
  induction count with
  | zero => exact Keeps.refl _ s
  | succ k ih =>
    have grow : Keeps { mem := fun a => base ≤ a ∧ a < base + (k + 1) ∧ a ≤ 0xFFF } s (scrambleBytes d base k s) :=
      { ih with mem := fun a h => ih.mem a (fun h' => h ⟨h'.1, by omega, h'.2.2⟩) }
    simp only [scrambleBytes]
    split
    · exact grow
    · have one := keeps_storeByte (scrambleBytes d base k s) (base + k) (Config.faultMemByte d (base + k))
      exact grow.trans { one with mem := fun a h => one.mem a (fun h' => h ⟨by omega, by omega, by omega⟩) }

theorem wf_scrambleBytes (d base count : Nat) (s : State) (h : Memory.wf s.cfg s.mem = true) :
    Memory.wf (scrambleBytes d base count s).cfg (scrambleBytes d base count s).mem = true := by
  induction count with
  | zero => exact h
  | succ k ih =>
    simp only [scrambleBytes]
    split
    · exact ih
    · exact Memory.wf_store _ _ _ _ (by simp only [Config.memSize]; omega) ih

theorem keeps_scrambleRegs (d count : Nat) (s : State) (hc : count ≤ 16) :
    Keeps { v := fun r => r.val < count } s (scrambleRegs d count s) := by
  induction count with
  | zero => exact Keeps.refl _ s
  | succ k ih =>
    have ih' := ih (by omega)
    have grow : Keeps { v := fun r : Reg => r.val < k + 1 } s (scrambleRegs d k s) :=
      { ih' with v := fun r h => ih'.v r (fun h' => h (by omega)) }
    have one := keeps_setV (scrambleRegs d k s) (Fin.ofNat 16 k) (Config.faultReg d (Fin.ofNat 16 k))
    refine grow.trans { one with v := fun r h => one.v r (fun h' => h ?_) }
    rw [h']
    simp [Nat.mod_eq_of_lt (show k < 16 by omega)]

theorem mem_scrambleRegs (d count : Nat) (s : State) : (scrambleRegs d count s).mem = s.mem := by
  induction count with
  | zero => rfl
  | succ k ih => simpa [scrambleRegs] using ih

/-! Fetch. -/

theorem fetchWord_ok (s : State) (h : s.pc.toNat ≤ 0xFFE) :
    fetchWord s = .ok (wordOfBytes (s.byteAt s.pc.toNat) (s.byteAt (s.pc.toNat + 1))) := by
  simp only [fetchWord, memRead_ok s (show s.pc.toNat ≤ 0xFFF by omega),
    memRead_ok s (show s.pc.toNat + 1 ≤ 0xFFF by omega)]

theorem fetchWord_error (s : State) (h : 0xFFE < s.pc.toNat) :
    fetchWord s = .error (.addressOutOfRange (max s.pc.toNat 0x1000)) := by
  by_cases hp : s.pc.toNat ≤ 0xFFF
  · simp only [fetchWord, memRead_ok s hp, memRead_error s (show 0xFFF < s.pc.toNat + 1 by omega)]
    congr 2
    omega
  · simp only [fetchWord, memRead_error s (show 0xFFF < s.pc.toNat by omega)]
    congr 2
    omega

/-! The call stack. -/

theorem push_ok (a : Word) (s : State) (h : s.sp.val < 16) :
    push a s = .ok ((s.setSlot ⟨s.sp.val, h⟩ a).setSp ⟨s.sp.val + 1, by omega⟩) := by
  simp [push, h]

theorem push_error (a : Word) (s : State) (h : s.sp.val = 16) :
    push a s = .error (.stackOverflow (fetchAddr s)) := by
  simp [push, h]

theorem pop_ok (s : State) (h : s.sp.val ≠ 0) :
    pop s = .ok (s.getSlot ⟨s.sp.val - 1, by omega⟩, s.setSp ⟨s.sp.val - 1, by omega⟩) := by
  simp [pop, h]

theorem pop_error (s : State) (h : s.sp.val = 0) : pop s = .error (.stackUnderflow (fetchAddr s)) := by
  simp [pop, h]

/-! Key index and lowest key. -/

theorem keyIndex_ok (v : Byte) (h : v.toNat < 16) : keyIndex v = .ok ⟨v.toNat, h⟩ := by
  simp [keyIndex, h]

theorem keyIndex_error (v : Byte) (h : 16 ≤ v.toNat) : keyIndex v = .error (.keyIndexOutOfRange v) := by
  simp [keyIndex]; omega

theorem lowestKeyDown_none (s : State) (h : ∀ k, s.getKey k = false) : lowestKeyDown s = none := by
  simp [lowestKeyDown, h]

theorem lowestKeyDown_some (s : State) (k : Fin 16) (hk : s.getKey k = true) (hlow : ∀ j < k, s.getKey j = false) :
    lowestKeyDown s = some k := by
  unfold lowestKeyDown
  rw [List.find?_eq_some_iff_getElem]
  refine ⟨hk, k.val, by simp, by simp, ?_⟩
  intro j hj
  simpa using hlow ⟨j, by omega⟩ hj

/-! Drawing. -/

/-- What a row of bits can do: only VF and FB change. -/
theorem drawBit_rest (x0 y0 : Byte) (row : Nat) (b : Byte) (bit : Nat) (s : State) :
    drawBit x0 y0 row b bit s = { s with v := (drawBit x0 y0 row b bit s).v, fb := (drawBit x0 y0 row b bit s).fb } := by
  unfold drawBit
  split
  · dsimp only
    split <;> rfl
  · rfl

theorem drawBits_rest (x0 y0 : Byte) (row : Nat) (b : Byte) (k : Nat) (s : State) :
    drawBits x0 y0 row b k s
      = { s with v := (drawBits x0 y0 row b k s).v, fb := (drawBits x0 y0 row b k s).fb } := by
  induction k with
  | zero => rfl
  | succ k ih =>
    simp only [drawBits]
    rw [drawBit_rest, ih]

theorem drawRows_rest (x0 y0 : Byte) (base k : Nat) (s t : State) (h : drawRows x0 y0 base k s = .ok t) :
    t = { s with v := t.v, fb := t.fb } := by
  induction k generalizing t with
  | zero => cases h; rfl
  | succ k ih =>
    simp only [drawRows] at h
    split at h
    · cases h
    · rename_i u hu
      split at h
      · cases h
      · cases h
        rw [drawBits_rest, ih u hu]

theorem drawRows_ok (x0 y0 : Byte) (base k : Nat) (s : State) (h : k = 0 ∨ base + k ≤ 0x1000) :
    ∃ t, drawRows x0 y0 base k s = .ok t := by
  induction k with
  | zero => exact ⟨s, rfl⟩
  | succ k ih =>
    obtain ⟨t, ht⟩ := ih (by omega)
    exact ⟨drawBits x0 y0 k (t.byteAt (base + k)) 8 t,
      by simp only [drawRows, ht, memRead_ok t (show base + k ≤ 0xFFF by omega)]⟩

theorem drawRows_error (x0 y0 : Byte) (base k : Nat) (s : State) (h0 : k ≠ 0) (h : 0x1000 < base + k) :
    drawRows x0 y0 base k s = .error (.addressOutOfRange (max base 0x1000)) := by
  induction k with
  | zero => exact absurd rfl h0
  | succ k ih =>
    by_cases hk : k = 0 ∨ base + k ≤ 0x1000
    · obtain ⟨t, ht⟩ := drawRows_ok x0 y0 base k s hk
      simp only [drawRows, ht, memRead_error t (show 0xFFF < base + k by omega)]
      congr 2
      omega
    · simp only [drawRows, ih (by omega) (by omega)]

/-! Flags. -/

theorem flagByte_toNat (f : Bool) : (flagByte f).toNat = f.toNat := by cases f <;> rfl

/-- Two register writes change two registers. -/
theorem keeps_setV_setV (s : State) (x y : Reg) (a b : Byte) :
    Keeps { v := fun q => q = x ∨ q = y } s ((s.setV x a).setV y b) :=
  have one := keeps_setV s x a
  have two := keeps_setV (s.setV x a) y b
  { one.trans (Keeps.refl _ _) with
    v := fun q h => (two.v q fun e => h (Or.inr e)).trans (one.v q fun e => h (Or.inl e)) }

theorem writeRf_result_flag (x : Reg) (r : Byte) (f : Bool) (s : State) :
    WritesResultAndFlag x r.toNat f.toNat s (writeRf x r f s) := by
  refine ⟨fun hx => ?_, fun hx => ?_, ?_⟩
  · unfold writeRf
    split <;> simp [hx, hx.symm, flagByte_toNat]
  · subst hx
    unfold writeRf
    split <;> simp [flagByte_toNat]
  · unfold writeRf
    split
    · exact keeps_setV_setV s x 0xF r (flagByte f)
    · have := keeps_setV_setV s 0xF x (flagByte f) r
      exact { this with v := fun q h => this.v q fun e => h e.symm }

end Sys2Proof.Machine
end

