-- ==== Sys2Proof/Laws/PerInstr.lean ====
section
/-! SUPPORT. The opcode table, row by row: the encoding of an instruction carries the fixed bits of its row of
spec/opcode_table.json and its operands in the fields the row's format names (spec/30_encoding.md rules R103, R104). -/

namespace Sys2Proof.Laws.TableRow

/-- Mask and match of the row, copied from spec/opcode_table.json. -/
def maskMatch : Instr → Word × Word
  | .cls => (0xF0FF#16, 0x00E0#16)
  | .ret => (0xF0FF#16, 0x00EE#16)
  | .sys _ => (0xF000#16, 0x0000#16)
  | .jp _ => (0xF000#16, 0x1000#16)
  | .call _ => (0xF000#16, 0x2000#16)
  | .seImm _ _ => (0xF000#16, 0x3000#16)
  | .sneImm _ _ => (0xF000#16, 0x4000#16)
  | .seReg _ _ => (0xF000#16, 0x5000#16)
  | .ldImm _ _ => (0xF000#16, 0x6000#16)
  | .addImm _ _ => (0xF000#16, 0x7000#16)
  | .ldReg _ _ => (0xF00F#16, 0x8000#16)
  | .or _ _ => (0xF00F#16, 0x8001#16)
  | .and _ _ => (0xF00F#16, 0x8002#16)
  | .xor _ _ => (0xF00F#16, 0x8003#16)
  | .addReg _ _ => (0xF00F#16, 0x8004#16)
  | .sub _ _ => (0xF00F#16, 0x8005#16)
  | .shr _ _ => (0xF00F#16, 0x8006#16)
  | .subn _ _ => (0xF00F#16, 0x8007#16)
  | .shl _ _ => (0xF00F#16, 0x800E#16)
  | .sneReg _ _ => (0xF000#16, 0x9000#16)
  | .ldI _ => (0xF000#16, 0xA000#16)
  | .jpV0 _ => (0xF000#16, 0xB000#16)
  | .rnd _ _ => (0xF000#16, 0xC000#16)
  | .drw _ _ _ => (0xF000#16, 0xD000#16)
  | .skp _ => (0xF0FF#16, 0xE09E#16)
  | .sknp _ => (0xF0FF#16, 0xE0A1#16)
  | .ldVxDt _ => (0xF0FF#16, 0xF007#16)
  | .ldK _ => (0xF0FF#16, 0xF00A#16)
  | .ldDt _ => (0xF0FF#16, 0xF015#16)
  | .ldSt _ => (0xF0FF#16, 0xF018#16)
  | .addI _ => (0xF0FF#16, 0xF01E#16)
  | .ldF _ => (0xF0FF#16, 0xF029#16)
  | .ldB _ => (0xF0FF#16, 0xF033#16)
  | .ldMemI _ => (0xF0FF#16, 0xF055#16)
  | .ldRegI _ => (0xF0FF#16, 0xF065#16)

/-- The operands as the row's format places them: x = w[11:8], y = w[7:4], n = w[3:0], kk = w[7:0], nnn = w[11:0]. -/
def operandsIn (w : Word) : Instr → Prop
  | .cls | .ret => True
  | .sys nnn | .jp nnn | .call nnn | .ldI nnn | .jpV0 nnn => fieldNnn w = nnn
  | .seImm x kk | .sneImm x kk | .ldImm x kk | .addImm x kk | .rnd x kk => fieldX w = x ∧ fieldKk w = kk
  | .seReg x y | .ldReg x y | .or x y | .and x y | .xor x y | .addReg x y | .sub x y | .shr x y
  | .subn x y | .shl x y | .sneReg x y => fieldX w = x ∧ fieldY w = y
  | .drw x y n => fieldX w = x ∧ fieldY w = y ∧ fieldN w = n
  | .skp x | .sknp x | .ldVxDt x | .ldK x | .ldDt x | .ldSt x | .addI x | .ldF x | .ldB x | .ldMemI x
  | .ldRegI x => fieldX w = x

/-- The word of a well-formed instruction matches its row and holds its operands. -/
def Statement (i : Instr) : Prop :=
  i.wellFormed = true → encode i &&& (maskMatch i).1 = (maskMatch i).2 ∧ operandsIn (encode i) i

theorem nibble_and_ones (b : Nibble) : b &&& 0xF#4 = b := BitVec.and_allOnes

theorem byte_and_ones (b : Byte) : b &&& 0xFF#8 = b := BitVec.and_allOnes

theorem nnn_masked (op : Nibble) (nnn : Addr12) : asmNnn op nnn &&& 0xF000#16 = op ++ 0#12 := by
  have h : (0xF000#16 : Word) = 0xF#4 ++ 0#12 := by decide
  rw [asmNnn, h, BitVec.and_append]
  simp [nibble_and_ones]

theorem xkk_masked (op : Nibble) (x : Reg) (kk : Byte) : asmXkk op x kk &&& 0xF0FF#16 = op ++ 0#4 ++ kk := by
  have h : (0xF0FF#16 : Word) = 0xF#4 ++ 0#4 ++ 0xFF#8 := by decide
  rw [asmXkk, h, BitVec.and_append, BitVec.and_append]
  simp [nibble_and_ones, byte_and_ones]

theorem xkk_op_masked (op : Nibble) (x : Reg) (kk : Byte) : asmXkk op x kk &&& 0xF000#16 = op ++ 0#4 ++ 0#8 := by
  have h : (0xF000#16 : Word) = 0xF#4 ++ 0#4 ++ 0#8 := by decide
  rw [asmXkk, h, BitVec.and_append, BitVec.and_append]
  simp [nibble_and_ones]

theorem xyn_masked (op : Nibble) (x y : Reg) (n : Nibble) :
    asmXyn op x y n &&& 0xF00F#16 = op ++ 0#4 ++ 0#4 ++ n := by
  have h : (0xF00F#16 : Word) = 0xF#4 ++ 0#4 ++ 0#4 ++ 0xF#4 := by decide
  rw [asmXyn, h, BitVec.and_append, BitVec.and_append, BitVec.and_append]
  simp [nibble_and_ones]

theorem xyn_op_masked (op : Nibble) (x y : Reg) (n : Nibble) :
    asmXyn op x y n &&& 0xF000#16 = op ++ 0#4 ++ 0#4 ++ 0#4 := by
  have h : (0xF000#16 : Word) = 0xF#4 ++ 0#4 ++ 0#4 ++ 0#4 := by decide
  rw [asmXyn, h, BitVec.and_append, BitVec.and_append, BitVec.and_append]
  simp [nibble_and_ones]

theorem cls : Statement .cls := fun _ => ⟨rfl, trivial⟩

theorem ret : Statement .ret := fun _ => ⟨rfl, trivial⟩

theorem sys (nnn : Addr12) : Statement (.sys nnn) := fun _ => ⟨nnn_masked _ _, fieldNnn_asmNnn _ _⟩

theorem jp (nnn : Addr12) : Statement (.jp nnn) := fun _ => ⟨nnn_masked _ _, fieldNnn_asmNnn _ _⟩

theorem call (nnn : Addr12) : Statement (.call nnn) := fun _ => ⟨nnn_masked _ _, fieldNnn_asmNnn _ _⟩

theorem seImm (x : Reg) (kk : Byte) : Statement (.seImm x kk) :=
  fun _ => ⟨xkk_op_masked _ _ _, fieldX_asmXkk _ _ _, fieldKk_asmXkk _ _ _⟩

theorem sneImm (x : Reg) (kk : Byte) : Statement (.sneImm x kk) :=
  fun _ => ⟨xkk_op_masked _ _ _, fieldX_asmXkk _ _ _, fieldKk_asmXkk _ _ _⟩

theorem seReg (x y : Reg) : Statement (.seReg x y) :=
  fun _ => ⟨xyn_op_masked _ _ _ _, fieldX_asmXyn _ _ _ _, fieldY_asmXyn _ _ _ _⟩

theorem ldImm (x : Reg) (kk : Byte) : Statement (.ldImm x kk) :=
  fun _ => ⟨xkk_op_masked _ _ _, fieldX_asmXkk _ _ _, fieldKk_asmXkk _ _ _⟩

theorem addImm (x : Reg) (kk : Byte) : Statement (.addImm x kk) :=
  fun _ => ⟨xkk_op_masked _ _ _, fieldX_asmXkk _ _ _, fieldKk_asmXkk _ _ _⟩

theorem ldReg (x y : Reg) : Statement (.ldReg x y) :=
  fun _ => ⟨xyn_masked _ _ _ _, fieldX_asmXyn _ _ _ _, fieldY_asmXyn _ _ _ _⟩

theorem or (x y : Reg) : Statement (.or x y) :=
  fun _ => ⟨xyn_masked _ _ _ _, fieldX_asmXyn _ _ _ _, fieldY_asmXyn _ _ _ _⟩

theorem and (x y : Reg) : Statement (.and x y) :=
  fun _ => ⟨xyn_masked _ _ _ _, fieldX_asmXyn _ _ _ _, fieldY_asmXyn _ _ _ _⟩

theorem xor (x y : Reg) : Statement (.xor x y) :=
  fun _ => ⟨xyn_masked _ _ _ _, fieldX_asmXyn _ _ _ _, fieldY_asmXyn _ _ _ _⟩

theorem addReg (x y : Reg) : Statement (.addReg x y) :=
  fun _ => ⟨xyn_masked _ _ _ _, fieldX_asmXyn _ _ _ _, fieldY_asmXyn _ _ _ _⟩

theorem sub (x y : Reg) : Statement (.sub x y) :=
  fun _ => ⟨xyn_masked _ _ _ _, fieldX_asmXyn _ _ _ _, fieldY_asmXyn _ _ _ _⟩

theorem shr (x y : Reg) : Statement (.shr x y) :=
  fun _ => ⟨xyn_masked _ _ _ _, fieldX_asmXyn _ _ _ _, fieldY_asmXyn _ _ _ _⟩

theorem subn (x y : Reg) : Statement (.subn x y) :=
  fun _ => ⟨xyn_masked _ _ _ _, fieldX_asmXyn _ _ _ _, fieldY_asmXyn _ _ _ _⟩

theorem shl (x y : Reg) : Statement (.shl x y) :=
  fun _ => ⟨xyn_masked _ _ _ _, fieldX_asmXyn _ _ _ _, fieldY_asmXyn _ _ _ _⟩

theorem sneReg (x y : Reg) : Statement (.sneReg x y) :=
  fun _ => ⟨xyn_op_masked _ _ _ _, fieldX_asmXyn _ _ _ _, fieldY_asmXyn _ _ _ _⟩

theorem ldI (nnn : Addr12) : Statement (.ldI nnn) := fun _ => ⟨nnn_masked _ _, fieldNnn_asmNnn _ _⟩

theorem jpV0 (nnn : Addr12) : Statement (.jpV0 nnn) := fun _ => ⟨nnn_masked _ _, fieldNnn_asmNnn _ _⟩

theorem rnd (x : Reg) (kk : Byte) : Statement (.rnd x kk) :=
  fun _ => ⟨xkk_op_masked _ _ _, fieldX_asmXkk _ _ _, fieldKk_asmXkk _ _ _⟩

theorem drw (x y : Reg) (n : Nibble) : Statement (.drw x y n) :=
  fun _ =>
  ⟨xyn_op_masked _ _ _ _, fieldX_asmXyn _ _ _ _, fieldY_asmXyn _ _ _ _, fieldN_asmXyn _ _ _ _⟩

theorem skp (x : Reg) : Statement (.skp x) := fun _ => ⟨xkk_masked _ _ _, fieldX_asmXkk _ _ _⟩

theorem sknp (x : Reg) : Statement (.sknp x) := fun _ => ⟨xkk_masked _ _ _, fieldX_asmXkk _ _ _⟩

theorem ldVxDt (x : Reg) : Statement (.ldVxDt x) := fun _ => ⟨xkk_masked _ _ _, fieldX_asmXkk _ _ _⟩

theorem ldK (x : Reg) : Statement (.ldK x) := fun _ => ⟨xkk_masked _ _ _, fieldX_asmXkk _ _ _⟩

theorem ldDt (x : Reg) : Statement (.ldDt x) := fun _ => ⟨xkk_masked _ _ _, fieldX_asmXkk _ _ _⟩

theorem ldSt (x : Reg) : Statement (.ldSt x) := fun _ => ⟨xkk_masked _ _ _, fieldX_asmXkk _ _ _⟩

theorem addI (x : Reg) : Statement (.addI x) := fun _ => ⟨xkk_masked _ _ _, fieldX_asmXkk _ _ _⟩

theorem ldF (x : Reg) : Statement (.ldF x) := fun _ => ⟨xkk_masked _ _ _, fieldX_asmXkk _ _ _⟩

theorem ldB (x : Reg) : Statement (.ldB x) := fun _ => ⟨xkk_masked _ _ _, fieldX_asmXkk _ _ _⟩

theorem ldMemI (x : Reg) : Statement (.ldMemI x) := fun _ => ⟨xkk_masked _ _ _, fieldX_asmXkk _ _ _⟩

theorem ldRegI (x : Reg) : Statement (.ldRegI x) := fun _ => ⟨xkk_masked _ _ _, fieldX_asmXkk _ _ _⟩

end Sys2Proof.Laws.TableRow
end

