-- ==== Sys2Proof/Tests/Slice0.lean ====
section
/-! SUPPORT. The model's own tests: the WellFormed smoke test; a word of every instruction, written out from the
opcode map of spec/30_encoding.md rules R106 to R110, and what it decodes to; vectors of spec/95_test_vectors.md, one
step each; a witness for every statement with hypotheses. Names of vectors (CV3, AV14 ..) are that file's. -/

namespace Sys2Proof.Tests

set_option Elab.async false

open Sys2Proof.Machine

/-- Step with the word w at PC, and test the next state. -/
def stepped (w : Nat) (s : State) (f : State → Bool) : Bool := nextSatisfies (step (s.withFetchWord 16 w)) f

/-- The last fault recorded is f. -/
def lastFault (f : CpuFault) (s : State) : Bool := s.faultRecord.getLast? == some (.entry f)

/-- A host operation leaves a state that passes a test. -/
def hosted (op : HostOp) (s : State) (f : State × HostResult → Bool) : Bool :=
  match hostStep op s with
  | .next r => f r
  | .fault _ => false
  | .refused _ => false

/-- A passed test names the next state. -/
theorem exists_of_nextSatisfies (o : Host.Outcome State Fault Refusal) (f : State → Bool)
    (h : nextSatisfies o f = true) : ∃ t, o = .next t ∧ f t = true := by
  cases o with
  | next t => exact ⟨t, rfl, h⟩
  | fault e => cases h
  | refused r => cases h

/-! ## WellFormed: the one check, with a term it refuses for each of its two values -/

theorem test_wellFormed_refuses_sys_cls : (Instr.sys 0x0E0#12).wellFormed = false := by decide

theorem test_wellFormed_refuses_sys_ret : (Instr.sys 0x1EE#12).wellFormed = false := by decide

theorem test_wellFormed_accepts_sys : (Instr.sys 0x0E1#12).wellFormed = true := by decide

/-! ## Decode: a word of each instruction, its fields written one after another as bits -/

theorem test_decode_cls : decode 0b0000000011100000#16 = .ok .cls := by decide

theorem test_decode_ret : decode 0b0000000011101110#16 = .ok .ret := by decide

theorem test_decode_sys : decode 0b0000000100100011#16 = .ok (.sys 0x123#12) := by decide

theorem test_decode_jp : decode 0b0001101010111100#16 = .ok (.jp 0xABC#12) := by decide

theorem test_decode_call : decode 0b0010101010111100#16 = .ok (.call 0xABC#12) := by decide

theorem test_decode_seImm : decode 0b0011101001000010#16 = .ok (.seImm 0xA 0x42#8) := by decide

theorem test_decode_sneImm : decode 0b0100101001000010#16 = .ok (.sneImm 0xA 0x42#8) := by decide

theorem test_decode_seReg : decode 0b0101101010110111#16 = .ok (.seReg 0xA 0xB) := by decide

theorem test_decode_ldImm : decode 0b0110101001000010#16 = .ok (.ldImm 0xA 0x42#8) := by decide

theorem test_decode_addImm : decode 0b0111101011111111#16 = .ok (.addImm 0xA 0xFF#8) := by decide

theorem test_decode_ldReg : decode 0b1000101010110000#16 = .ok (.ldReg 0xA 0xB) := by decide

theorem test_decode_or : decode 0b1000101010110001#16 = .ok (.or 0xA 0xB) := by decide

theorem test_decode_and : decode 0b1000101010110010#16 = .ok (.and 0xA 0xB) := by decide

theorem test_decode_xor : decode 0b1000101010110011#16 = .ok (.xor 0xA 0xB) := by decide

theorem test_decode_addReg : decode 0b1000101010110100#16 = .ok (.addReg 0xA 0xB) := by decide

theorem test_decode_sub : decode 0b1000101010110101#16 = .ok (.sub 0xA 0xB) := by decide

theorem test_decode_shr : decode 0b1000101010110110#16 = .ok (.shr 0xA 0xB) := by decide

theorem test_decode_subn : decode 0b1000101010110111#16 = .ok (.subn 0xA 0xB) := by decide

theorem test_decode_shl : decode 0b1000101010111110#16 = .ok (.shl 0xA 0xB) := by decide

theorem test_decode_sneReg : decode 0b1001101010110000#16 = .ok (.sneReg 0xA 0xB) := by decide

theorem test_decode_ldI : decode 0b1010000100100011#16 = .ok (.ldI 0x123#12) := by decide

theorem test_decode_jpV0 : decode 0b1011001011110000#16 = .ok (.jpV0 0x2F0#12) := by decide

theorem test_decode_rnd : decode 0b1100101000001111#16 = .ok (.rnd 0xA 0x0F#8) := by decide

theorem test_decode_drw : decode 0b1101000100100101#16 = .ok (.drw 1 2 0x5#4) := by decide

theorem test_decode_skp : decode 0b1110000110011110#16 = .ok (.skp 1) := by decide

theorem test_decode_sknp : decode 0b1110000110100001#16 = .ok (.sknp 1) := by decide

theorem test_decode_ldVxDt : decode 0b1111010100000111#16 = .ok (.ldVxDt 5) := by decide

theorem test_decode_ldK : decode 0b1111010100001010#16 = .ok (.ldK 5) := by decide

theorem test_decode_ldDt : decode 0b1111010100010101#16 = .ok (.ldDt 5) := by decide

theorem test_decode_ldSt : decode 0b1111010100011000#16 = .ok (.ldSt 5) := by decide

theorem test_decode_addI : decode 0b1111010100011110#16 = .ok (.addI 5) := by decide

theorem test_decode_ldF : decode 0b1111010100101001#16 = .ok (.ldF 5) := by decide

theorem test_decode_ldB : decode 0b1111010100110011#16 = .ok (.ldB 5) := by decide

theorem test_decode_ldMemI : decode 0b1111010101010101#16 = .ok (.ldMemI 5) := by decide

theorem test_decode_ldRegI : decode 0b1111010101100101#16 = .ok (.ldRegI 5) := by decide

/-- R112: the largest unused n of op 8. -/
theorem test_decode_unknown8 : decode 0b1000101010111111#16 = .error (.unknownInstruction 0x8ABF#16) := by decide

/-- R112: a kk of op E between the two used ones. -/
theorem test_decode_unknownE : decode 0b1110000110011111#16 = .error (.unknownInstruction 0xE19F#16) := by decide

/-- R112: a kk of op F next to a used one. -/
theorem test_decode_unknownF : decode 0b1111010101100110#16 = .error (.unknownInstruction 0xF566#16) := by decide

/-- The first byte is the high one (R75); exactly two bytes are consumed (R102). -/
theorem test_decode_bytes : decodeBytes [0x60#8, 0x05#8, 0x70#8] = .ok (.ldImm 0 0x05#8, [0x70#8]) := by decide

theorem test_decode_truncated : decodeBytes [0x60#8] = .error (.truncated 1) := by decide

theorem test_decodeTableWord : decodeTableWord 16 0xD125 = some (.drw 1 2 0x5#4) := by decide

/-! ## Vectors, one step each -/

/-- DV1. -/
theorem test_cls_dv1 :
    stepped 0x00E0 ((State.reset.setCell 5 5 true).setV 0xF 0x33#8) (fun t =>
      !t.getCell 5 5 && t.dirty && t.getV 0xF == 0x33#8 && t.pc == 0x202#16) = true := by
  decide +kernel

/-- DV13: w[11:8] is ignored. -/
theorem test_cls_dv13 :
    stepped 0x01E0 (State.reset.setCell 0 0 true) (fun t =>
      !t.getCell 0 0 && t.dirty && t.diagLog == []) = true := by
  decide +kernel

/-- W5: columns wrap. -/
theorem test_drw_w5 :
    stepped 0xD011 ((((State.reset.setIndex 0x300#16).storeByte 0x300 0xFF#8)).setV 0 0x3F#8) (fun t =>
      t.getCell 63 0 && t.getCell 0 0 && t.getCell 6 0 && !t.getCell 7 0 && !t.getCell 62 0 && t.getV 0xF == 0#8) = true := by
  decide +kernel

/-- DV11: the row is read from VF before VF is cleared. -/
theorem test_drw_dv11 :
    stepped 0xD0F1 ((((State.reset.setIndex 0x300#16).storeByte 0x300 0x80#8).setV 0 2#8).setV 0xF 5#8) (fun t =>
      t.getCell 2 5 && !t.getCell 2 0 && t.getV 0xF == 0#8 && t.dirty) = true := by
  decide +kernel

/-- CV22. -/
theorem test_sys_cv22 :
    stepped 0x0123 State.reset (fun t =>
      t.pc == 0x202#16 && t.diagLog == [.entry (.unknownInstruction 0x0123#16 0x200#16)] && t.faultRecord == []) = true := by
  decide +kernel

/-- AV33. -/
theorem test_unknown_av33 :
    stepped 0x8AB8 State.reset (fun t =>
      t.pc == 0x202#16 && t.diagLog == [.entry (.unknownInstruction 0x8AB8#16 0x200#16)] && t.faultRecord == []) = true := by
  decide +kernel

/-- CV2. -/
theorem test_jp_cv2 :
    stepped 0x1FFF State.reset (fun t =>
      t.pc == 0xFFF#16) = true := by
  decide +kernel

/-- CV3. -/
theorem test_call_cv3 :
    stepped 0x2300 State.reset (fun t =>
      t.getSlot 0 == 0x202#16 && t.sp == 1 && t.pc == 0x300#16) = true := by
  decide +kernel

/-- CV4. -/
theorem test_call_cv4 :
    stepped 0x2300 (State.reset.setSp 16) (fun t =>
      lastFault (.stackOverflow 0x200#16) t && t.pc == 0x202#16 && t.sp == 16) = true := by
  decide +kernel

/-- CV5. -/
theorem test_ret_cv5 :
    stepped 0x00EE ((State.reset.setSlot 1 0x456#16).setSp 2) (fun t =>
      t.pc == 0x456#16 && t.sp == 1 && t.getSlot 1 == 0x456#16) = true := by
  decide +kernel

/-- CV6. -/
theorem test_ret_cv6 :
    stepped 0x00EE State.reset (fun t =>
      lastFault (.stackUnderflow 0x200#16) t && t.pc == 0x202#16 && t.sp == 0) = true := by
  decide +kernel

/-- CV8. -/
theorem test_seImm_cv8 :
    stepped 0x3A42 (State.reset.setV 0xA 0x42#8) (fun t =>
      t.pc == 0x204#16) = true := by
  decide +kernel

/-- CV9. -/
theorem test_seImm_cv9 :
    stepped 0x3A42 (State.reset.setV 0xA 0x43#8) (fun t =>
      t.pc == 0x202#16) = true := by
  decide +kernel

/-- CV10. -/
theorem test_sneImm_cv10 :
    stepped 0x4A42 (State.reset.setV 0xA 0x42#8) (fun t =>
      t.pc == 0x202#16) = true := by
  decide +kernel

/-- CV11. -/
theorem test_sneImm_cv11 :
    stepped 0x4A42 (State.reset.setV 0xA 0x43#8) (fun t =>
      t.pc == 0x204#16) = true := by
  decide +kernel

/-- CV13. -/
theorem test_seReg_cv13 :
    stepped 0x5AB0 ((State.reset.setV 0xA 0x10#8).setV 0xB 0x11#8) (fun t =>
      t.pc == 0x202#16) = true := by
  decide +kernel

/-- CV15: n is ignored. -/
theorem test_seReg_cv15 :
    stepped 0x5AB7 ((State.reset.setV 0xA 0x10#8).setV 0xB 0x10#8) (fun t =>
      t.pc == 0x204#16) = true := by
  decide +kernel

/-- CV16. -/
theorem test_sneReg_cv16 :
    stepped 0x9AB0 ((State.reset.setV 0xA 0x10#8).setV 0xB 0x11#8) (fun t =>
      t.pc == 0x204#16) = true := by
  decide +kernel

/-- CV17. -/
theorem test_sneReg_cv17 :
    stepped 0x9AA0 (State.reset.setV 0xA 0x10#8) (fun t =>
      t.pc == 0x202#16) = true := by
  decide +kernel

/-- CV19: no wrap at 12 bits. -/
theorem test_jpV0_cv19 :
    stepped 0xBFFF (State.reset.setV 0 0xFF#8) (fun t =>
      t.pc == 0x10FE#16) = true := by
  decide +kernel

/-- CV20. -/
theorem test_jpV0_cv20 :
    stepped 0xB2F0 ((State.initial { defaultCfg with jumpOffsetVx := true }).setV 2 0x10#8) (fun t =>
      t.pc == 0x300#16) = true := by
  decide +kernel

/-- AV1. -/
theorem test_ldImm_av1 :
    stepped 0x6A42 State.reset (fun t =>
      t.getV 0xA == 0x42#8 && t.pc == 0x202#16) = true := by
  decide +kernel

/-- AV2. -/
theorem test_addImm_av2 :
    stepped 0x7AFF ((State.reset.setV 0xA 2#8).setV 0xF 0x55#8) (fun t =>
      t.getV 0xA == 1#8 && t.getV 0xF == 0x55#8) = true := by
  decide +kernel

/-- AV3. -/
theorem test_ldReg_av3 :
    stepped 0x8AB0 (State.reset.setV 0xB 0x11#8) (fun t =>
      t.getV 0xA == 0x11#8 && t.getV 0xB == 0x11#8) = true := by
  decide +kernel

/-- AV4. -/
theorem test_or_av4 :
    stepped 0x8AB1 (((State.reset.setV 0xA 0x0C#8).setV 0xB 0x0A#8).setV 0xF 0x77#8) (fun t =>
      t.getV 0xA == 0x0E#8 && t.getV 0xF == 0x77#8) = true := by
  decide +kernel

/-- AV5. -/
theorem test_and_av5 :
    stepped 0x8AB2 ((State.reset.setV 0xA 0x0C#8).setV 0xB 0x0A#8) (fun t =>
      t.getV 0xA == 0x08#8) = true := by
  decide +kernel

/-- AV6. -/
theorem test_xor_av6 :
    stepped 0x8AB3 ((State.reset.setV 0xA 0x0C#8).setV 0xB 0x0A#8) (fun t =>
      t.getV 0xA == 0x06#8) = true := by
  decide +kernel

/-- AV9. -/
theorem test_addReg_av9 :
    stepped 0x8AB4 ((State.reset.setV 0xA 0xFF#8).setV 0xB 0xFF#8) (fun t =>
      t.getV 0xA == 0xFE#8 && t.getV 0xF == 1#8) = true := by
  decide +kernel

/-- AV14: VF is read before it is written. -/
theorem test_addReg_av14 :
    stepped 0x8AF4 ((State.reset.setV 0xA 1#8).setV 0xF 2#8) (fun t =>
      t.getV 0xA == 3#8 && t.getV 0xF == 0#8) = true := by
  decide +kernel

/-- AV15. -/
theorem test_sub_av15 :
    stepped 0x8AB5 (State.reset.setV 0xB 1#8) (fun t =>
      t.getV 0xA == 0xFF#8 && t.getV 0xF == 0#8) = true := by
  decide +kernel

/-- AV18: x = 0xF, both orders. -/
theorem test_sub_av18 :
    stepped 0x8FF5 ((State.initial { defaultCfg with vfLast := true }).setV 0xF 0x33#8) (fun t =>
      t.getV 0xF == 1#8) = true := by
  decide +kernel

/-- AV19. -/
theorem test_shr_av19 :
    stepped 0x8AB6 (State.reset.setV 0xA 1#8) (fun t =>
      t.getV 0xA == 0#8 && t.getV 0xF == 1#8) = true := by
  decide +kernel

/-- AV21. -/
theorem test_shr_av21 :
    stepped 0x8AB6 ((State.initial { defaultCfg with shiftSrcVy := true }).setV 0xB 3#8) (fun t =>
      t.getV 0xA == 1#8 && t.getV 0xF == 1#8 && t.getV 0xB == 3#8) = true := by
  decide +kernel

/-- AV23. -/
theorem test_subn_av23 :
    stepped 0x8AB7 (State.reset.setV 0xA 1#8) (fun t =>
      t.getV 0xA == 0xFF#8 && t.getV 0xF == 0#8) = true := by
  decide +kernel

/-- AV25. -/
theorem test_subn_av25 :
    stepped 0x8AB7 ((State.reset.setV 0xA 3#8).setV 0xB 5#8) (fun t =>
      t.getV 0xA == 2#8 && t.getV 0xF == 1#8) = true := by
  decide +kernel

/-- AV26. -/
theorem test_shl_av26 :
    stepped 0x8ABE (State.reset.setV 0xA 0x80#8) (fun t =>
      t.getV 0xA == 0#8 && t.getV 0xF == 1#8) = true := by
  decide +kernel

/-- AV29. -/
theorem test_shl_av29 :
    stepped 0x8ABE ((State.initial { defaultCfg with shlFlagLsb := true }).setV 0xA 0x80#8) (fun t =>
      t.getV 0xA == 0#8 && t.getV 0xF == 0#8) = true := by
  decide +kernel

/-- MV1. -/
theorem test_ldI_mv1 :
    stepped 0xA123 State.reset (fun t =>
      t.index == 0x123#16) = true := by
  decide +kernel

/-- MV2. -/
theorem test_addI_mv2 :
    stepped 0xF01E (((State.reset.setIndex 0xFFF#16).setV 0 1#8).setV 0xF 0x44#8) (fun t =>
      t.index == 0x1000#16 && t.getV 0xF == 0x44#8) = true := by
  decide +kernel

/-- MV3. -/
theorem test_addI_mv3 :
    stepped 0xF01E ((State.reset.setIndex 0xFFFF#16).setV 0 2#8) (fun t =>
      t.index == 1#16) = true := by
  decide +kernel

/-- MV4. -/
theorem test_ldF_mv4 :
    stepped 0xF029 (State.reset.setV 0 0x0A#8) (fun t =>
      t.index == 0x082#16) = true := by
  decide +kernel

/-- MV5. -/
theorem test_ldF_mv5 :
    stepped 0xF029 (State.reset.setV 0 0xFF#8) (fun t =>
      t.index == 0x09B#16) = true := by
  decide +kernel

/-- W9. -/
theorem test_ldB_w9 :
    stepped 0xF033 ((State.reset.setIndex 0x300#16).setV 0 0x7B#8) (fun t =>
      t.byteAt 0x300 == 1#8 && t.byteAt 0x301 == 2#8 && t.byteAt 0x302 == 3#8 && t.index == 0x300#16) = true := by
  decide +kernel

/-- MV10. -/
theorem test_ldB_mv10 :
    stepped 0xF033 ((State.reset.setIndex 0xFFE#16).setV 0 0x7B#8) (fun t =>
      lastFault (.addressOutOfRange 0x1000) t && t.pc == 0x202#16 && t.index == 0xFFE#16) = true := by
  decide +kernel

/-- MV12. -/
theorem test_ldMemI_mv12 :
    stepped 0xF255 ((((State.initial { defaultCfg with incIStore := true }).setIndex 0x400#16).setV 0 0xAA#8).setV 2 0xCC#8) (fun t =>
      t.byteAt 0x400 == 0xAA#8 && t.byteAt 0x402 == 0xCC#8 && t.index == 0x403#16) = true := by
  decide +kernel

/-- MV13. -/
theorem test_ldMemI_mv13 :
    stepped 0xFF55 (State.reset.setIndex 0xFF8#16) (fun t =>
      lastFault (.addressOutOfRange 0x1000) t && t.pc == 0x202#16) = true := by
  decide +kernel

/-- MV14. -/
theorem test_ldRegI_mv14 :
    stepped 0xF065 ((State.reset.setIndex 0x300#16).storeByte 0x300 0x5A#8) (fun t =>
      t.getV 0 == 0x5A#8 && t.index == 0x301#16) = true := by
  decide +kernel

/-- MV17. -/
theorem test_ldRegI_mv17 :
    stepped 0xF065 (State.reset.setIndex 0x1000#16) (fun t =>
      lastFault (.addressOutOfRange 0x1000) t && t.pc == 0x202#16) = true := by
  decide +kernel

/-- KV1. -/
theorem test_skp_kv1 :
    stepped 0xE19E ((State.reset.setV 1 5#8).setKey 5 true) (fun t =>
      t.pc == 0x204#16) = true := by
  decide +kernel

/-- KV5. -/
theorem test_skp_kv5 :
    stepped 0xE19E (State.reset.setV 1 0x10#8) (fun t =>
      lastFault (.keyIndexOutOfRange 0x10#8) t && t.pc == 0x202#16) = true := by
  decide +kernel

/-- KV3. -/
theorem test_sknp_kv3 :
    stepped 0xE1A1 (State.reset.setV 1 5#8) (fun t =>
      t.pc == 0x204#16) = true := by
  decide +kernel

/-- KV6. -/
theorem test_sknp_kv6 :
    stepped 0xE1A1 (State.reset.setV 1 0xFF#8) (fun t =>
      lastFault (.keyIndexOutOfRange 0xFF#8) t && t.pc == 0x202#16) = true := by
  decide +kernel

/-- KV7. -/
theorem test_ldK_kv7 :
    stepped 0xF00A (State.reset.setV 0 0x77#8) (fun t =>
      t.pc == 0x200#16 && t.getV 0 == 0x77#8) = true := by
  decide +kernel

/-- KV8. -/
theorem test_ldK_kv8 :
    stepped 0xF00A ((State.reset.setKey 3 true).setKey 9 true) (fun t =>
      t.getV 0 == 3#8 && t.pc == 0x202#16) = true := by
  decide +kernel

/-- KV10. -/
theorem test_ldVxDt_kv10 :
    stepped 0xF007 (State.reset.setDt 0x20#8) (fun t =>
      t.getV 0 == 0x20#8) = true := by
  decide +kernel

/-- KV11. -/
theorem test_ldDt_kv11 :
    stepped 0xF015 (State.reset.setV 0 0x3C#8) (fun t =>
      t.dt == 0x3C#8 && t.st == 0#8) = true := by
  decide +kernel

/-- KV18: no beep. -/
theorem test_ldSt_kv18 :
    stepped 0xF018 (State.reset.setSt 5#8) (fun t =>
      t.st == 0#8 && !t.beep && t.dt == 0#8) = true := by
  decide +kernel

/-- FV2. -/
theorem test_fetch_fv2 :
    stepped 0x7001 (State.reset.setPc 0xFFE#16) (fun t =>
      t.getV 0 == 1#8 && t.pc == 0x1000#16) = true := by
  decide +kernel

/-- FV5: an odd PC. -/
theorem test_fetch_fv5 :
    stepped 0x6A42 (State.reset.setPc 0x201#16) (fun t =>
      t.getV 0xA == 0x42#8 && t.pc == 0x203#16) = true := by
  decide +kernel

/-- AV31: no draw passes the mask 0. -/
theorem test_rnd_av31 : ∃ t, exec (.rnd 0xA 0#8) State.reset = .next t ∧ t.getV 0xA = 0#8 :=
  ⟨_, rfl, by simp [State.getV, State.setV]⟩

/-- AV32: the mask 0xFF gives the draw. -/
theorem test_rnd_av32 :
    ∃ t, exec (.rnd 0xA 0xFF#8) State.reset = .next t ∧ t.getV 0xA = Config.randomByte 0 ∧ t.draws = 1 :=
  ⟨_, rfl, by
    have h : Config.randomByte State.reset.draws &&& 0xFF#8 = Config.randomByte 0 := BitVec.and_allOnes
    simpa [State.getV, State.setV] using h, rfl⟩

/-- FV4 and FV6: the faults of a fetch at 0xFFF and above; PC stays. -/
theorem test_fetch_fv4_fv6 :
    nextSatisfies (step (State.reset.setPc 0xFFF#16)) (fun t =>
      lastFault (.addressOutOfRange 0x1000) t && t.pc == 0xFFF#16) = true ∧
    nextSatisfies (step (State.reset.setPc 0x10FE#16)) (fun t =>
      lastFault (.addressOutOfRange 0x10FE) t && t.pc == 0x10FE#16) = true := by
  decide +kernel

/-! ## Host operations (HV, KV13 to KV17) -/

theorem test_tick_kv13 : hosted .tickTimers State.reset (fun r => r.1.dt == 0#8 && r.1.st == 0#8 && !r.1.beep) = true := by
  decide +kernel

theorem test_tick_kv15 : hosted .tickTimers ((State.reset.setDt 5#8).setSt 1#8) (fun r =>
    r.1.dt == 4#8 && r.1.st == 0#8 && r.1.beep) = true := by
  decide +kernel

theorem test_beepPending_kv16 : hosted .beepPending (State.reset.setBeep true) (fun r =>
    r.2 == .flag true && !r.1.beep) = true := by
  decide +kernel

theorem test_consumeDirty_hv4 : hosted .consumeDirtyFlag (State.reset.setDirty true) (fun r =>
    r.2 == .flag true && !r.1.dirty) = true := by
  decide +kernel

theorem test_load_hv1 : hosted (.loadProgram [0x60#8, 0x05#8]) State.reset (fun r =>
    r.2 == .loadOk && r.1.byteAt 0x200 == 0x60#8 && r.1.byteAt 0x201 == 0x05#8 && r.1.pc == 0x200#16) = true := by
  decide +kernel

theorem test_load_hv2 : hosted (.loadProgram (List.replicate 3585 0#8)) State.reset (fun r =>
    r.2 == .loadErr (.programTooLarge 3585)) = true := by
  decide +kernel

theorem test_setKey_hv6_hv7 :
    hosted (.setKey 0xA true) State.reset (fun r => r.1.getKey 0xA && !r.1.getKey 0xB) = true ∧
    hostStep (.setKey 16 true) State.reset = .refused (.keyIndexNoStep 16) := by
  exact ⟨by decide +kernel, rfl⟩

/-- HV8. -/
theorem test_snapshot_hv8 : (snapshot (State.reset.setCell 1 2 true))[129] = true ∧
    (snapshot (State.reset.setCell 1 2 true))[128] = false := by
  constructor <;> (simp only [snapshot, Vector.getElem_ofFn]; decide +kernel)

/-- HV9. -/
theorem test_reset_hv9 : hosted .reset ((State.reset.setV 3 9#8).storeByte 0x050 1#8) (fun r =>
    r.1.getV 3 == 0#8 && r.1.byteAt 0x050 == 0xF0#8 && r.1.byteAt 0x051 == 0x90#8 && r.1.byteAt 0x054 == 0xF0#8 &&
    r.1.byteAt 0x055 == 0x20#8 && r.1.byteAt 0x200 == 0#8 && r.1.faultRecord == [.resetMarker]) = true := by
  decide +kernel

/-- The outcome a cycle returns (R230): CV22's diagnostic. -/
theorem test_cycle_outcome : hosted .runCycle (State.reset.withFetchWord 16 0x0123) (fun r =>
    r.2 == .cycle (.diag (.unknownInstruction 0x0123#16 0x200#16))) = true := by
  decide +kernel

/-! ## Witnesses: a concrete state and operands that meet the hypotheses of each statement, one for each clause -/

/-- A state whose registers hold 1, 2, 3, .. and whose I and PC are given. -/
def numbered (index pc : Word) : State :=
  { State.reset with v := Vector.ofFn fun k => BitVec.ofNat 8 (k.val + 1), index := index, pc := pc }

theorem witness_DecodeOfEncodeIsIdentity : (Instr.sys 0xFFF#12).wellFormed = true := by decide

theorem witness_EncodeOfDecodeIsCanonicalWord :
    decode 0x9ABF#16 = .ok (.sneReg 0xA 0xB) ∧ decode 0x0FE0#16 = .ok .cls ∧ decode 0xFF65#16 = .ok (.ldRegI 0xF) := by
  decide

theorem witness_DecoderRejectsExactlyUnknownWords :
    isUnknownWord 0x8AB8#16 = true ∧ isUnknownWord 0x8AB7#16 = false ∧ isUnknownWord 0xE19F#16 = true ∧
    isUnknownWord 0xFFFF#16 = true ∧ isUnknownWord 0xFF65#16 = false := by
  decide

theorem witness_StepRunsDecodedInstruction :
    let s := (State.reset.setPc 0xFFE#16).withFetchWord 16 0x7001
    s.pc.toNat ≤ 0xFFE ∧ decode (wordOfBytes (s.byteAt s.pc.toNat) (s.byteAt (s.pc.toNat + 1))) = .ok (.addImm 0 1#8) := by
  decide +kernel

theorem witness_FetchFaultChangesOnlyTheRecord :
    0xFFE < (State.reset.setPc 0xFFF#16).pc.toNat ∧ 0xFFE < (State.reset.setPc 0x1000#16).pc.toNat := by
  decide

theorem witness_UnknownWordIsLoggedNoOp :
    fetchWord ((State.reset.setPc 0xFFE#16).withFetchWord 16 0x8ABF) = .ok 0x8ABF#16 ∧
    isUnknownWord 0x8ABF#16 = true := by
  decide +kernel

theorem witness_MemoryPrimitivesReadAndWriteOneByte :
    memRead State.reset 0x1000 = .error (.addressOutOfRange 0x1000) ∧ memRead State.reset 0xFFF = .ok 0#8 ∧
    (∃ t, memWrite State.reset 0xFFF 7#8 = .ok t ∧ t.byteAt 0xFFF = 7#8) :=
  ⟨rfl, rfl, _, rfl, by decide +kernel⟩

theorem witness_ResetStateHasResetValues : (0x04F < 0x050 ∨ 0x0A0 ≤ 0x04F) ∧ (0x0A0 < 0x050 ∨ 0x0A0 ≤ 0x0A0) := by
  decide

/-- With a sprite of n rows: none read at I = 0xFFFF; the last byte of memory read at n = 15, I = 0xFF1. -/
theorem witness_DrwXorsTheSprite :
    ((0x0#4 : Nibble).toNat = 0 ∨ (State.reset.setIndex 0xFFFF#16).index.toNat + (0x0#4 : Nibble).toNat ≤ 0x1000) ∧
    ((0xF#4 : Nibble).toNat = 0 ∨ (State.reset.setIndex 0xFF1#16).index.toNat + (0xF#4 : Nibble).toNat ≤ 0x1000) := by
  decide

/-- A sprite bit on a set cell (the corner, wrapped to from column 63), and no sprite bit anywhere. -/
theorem witness_DrwXorsTheSprite_hits :
    let s := (((State.reset.setIndex 0x300#16).storeByte 0x300 0x40#8).setV 0 0x3F#8).setCell 0 0 true
    (∃ cx cy, SpriteHits s 0 1 1 cx cy ∧ s.getCell cx cy = true) ∧
    ¬ ∃ cx cy, SpriteHits s 0 1 0 cx cy ∧ s.getCell cx cy = true :=
  ⟨⟨0, 0, ⟨0, 1, by decide, by decide, by decide +kernel, by decide +kernel, by decide +kernel⟩, by decide +kernel⟩,
    fun ⟨_, _, ⟨_, _, h, _⟩, _⟩ => absurd h (Nat.not_lt_zero _)⟩

theorem witness_DrwFaultsPastTheEndOfMemory :
    (0x1#4 : Nibble).toNat ≠ 0 ∧ 0x1000 < (State.reset.setIndex 0x1000#16).index.toNat + (0x1#4 : Nibble).toNat ∧
    0x1000 < (State.reset.setIndex 0xFFF#16).index.toNat + (0x2#4 : Nibble).toNat := by
  decide

/-- W4: the second draw is of the state the first one left. -/
theorem witness_SecondDrawUndoesTheFirst :
    let s := (State.reset.setIndex 0x300#16).storeByte 0x300 0x81#8
    ∃ t, exec (.drw 0 1 0x1#4) s = .next t ∧ t.index = s.index ∧ t.getV 0 = s.getV 0 ∧ t.getV 1 = s.getV 1 ∧
      t.byteAt 0x300 = s.byteAt 0x300 ∧ s.getCell 7 0 = false ∧ t.getCell 7 0 = true := by
  intro s
  obtain ⟨t, h, p⟩ := exists_of_nextSatisfies (exec (.drw 0 1 0x1#4) s) (fun t =>
    t.index == s.index && t.getV 0 == s.getV 0 && t.getV 1 == s.getV 1 && t.byteAt 0x300 == s.byteAt 0x300 &&
    !s.getCell 7 0 && t.getCell 7 0) (by decide +kernel)
  simp only [Bool.and_eq_true, beq_iff_eq, Bool.not_eq_true'] at p
  exact ⟨t, h, p.1.1.1.1.1, p.1.1.1.1.2, p.1.1.1.2, p.1.1.2, p.1.2, p.2⟩

theorem witness_PushStoresAtDepthOrOverflows :
    (State.reset.setSp 16).sp.val = 16 ∧ (State.reset.setSp 15).sp.val < 16 := by decide

theorem witness_CallPushesReturnAddress : State.reset.sp.val < 16 ∧ (State.reset.setSp 15).sp.val < 16 := by decide

theorem witness_CallOnFullStackFaults : (State.reset.setSp 16).sp.val = 16 := by decide

theorem witness_RetPopsReturnAddress : (State.reset.setSp 1).sp.val ≠ 0 ∧ (State.reset.setSp 16).sp.val ≠ 0 := by decide

theorem witness_RetOnEmptyStackFaults : State.reset.sp.val = 0 := by decide

/-- W6: the call at 0x200; and a state with the stack as the call left it and a RET at its PC. -/
theorem witness_CallThenReturnRestoresPc :
    let s := State.reset.withFetchWord 16 0x2300
    s.sp.val < 16 ∧ fetchWord s = .ok 0x2300#16 ∧ decode 0x2300#16 = .ok (.call 0x300#12) ∧
    ∃ t, step s = .next t ∧ ∃ u : State, fetchWord u = .ok 0x00EE#16 ∧ decode 0x00EE#16 = .ok .ret ∧
      u.sp = t.sp ∧ ∀ j, u.getSlot j = t.getSlot j := by
  intro s
  obtain ⟨t, h, p⟩ := exists_of_nextSatisfies (step s) (fun t =>
    decide (fetchWord (t.withFetchWord 16 0x00EE) = .ok 0x00EE#16) &&
    decide ((t.withFetchWord 16 0x00EE).sp = t.sp) &&
    decide (∀ j, (t.withFetchWord 16 0x00EE).getSlot j = t.getSlot j)) (by decide +kernel)
  simp only [Bool.and_eq_true, decide_eq_true_eq] at p
  exact ⟨by decide, by decide +kernel, by decide, t, h, _, p.1.1, by decide, p.1.2, p.2⟩

theorem witness_StackHoldsSixteenCalls :
    State.reset.sp.val = 0 ∧ Instr.ret ∉ List.replicate 16 (Instr.call 0x300#12) ∧
    (List.replicate 16 (Instr.call 0x300#12)).countP isCall = 16 ∧ [Instr.cls].countP isCall ≤ 16 := by
  decide

theorem witness_ShiftsMoveOneBit :
    let s := State.reset.setV 0xA 0x81#8
    0x81 = (if s.cfg.shiftSrcVy then s.getV 0xB else s.getV 0xA).toNat := by
  decide

theorem witness_AddRegistersCarriesIntoVF : (0xA : Reg) ≠ 0xF ∧ (0xF : Reg) = 0xF := by decide

theorem witness_BcdStoresThreeDigits : (State.reset.setIndex 0xFFD#16).index.toNat ≤ 0xFFD := by decide

theorem witness_BcdFaultsPastTheEndOfMemory :
    0xFFD < (State.reset.setIndex 0xFFE#16).index.toNat ∧ 0xFFD < (State.reset.setIndex 0xFFFF#16).index.toNat := by
  decide

theorem witness_DumpStoresRegisters :
    (State.reset.setIndex 0xFF0#16).index.toNat + (0xF : Reg).val ≤ 0xFFF ∧ (0xF : Reg) ≤ 0xF := by decide

theorem witness_DumpFaultsPastTheEndOfMemory :
    0xFFF < (State.reset.setIndex 0xFF1#16).index.toNat + (0xF : Reg).val ∧
    0xFFF < (State.reset.setIndex 0x1000#16).index.toNat + (0x0 : Reg).val := by
  decide

theorem witness_LoadReadsRegisters :
    (State.reset.setIndex 0xFFF#16).index.toNat + (0x0 : Reg).val ≤ 0xFFF ∧
    (State.reset.setIndex 0xFF0#16).index.toNat + (0xF : Reg).val ≤ 0xFFF := by
  decide

theorem witness_LoadFaultsPastTheEndOfMemory :
    0xFFF < (State.reset.setIndex 0xFFF#16).index.toNat + (0x1 : Reg).val ∧
    0xFFF < (State.reset.setIndex 0xFFFF#16).index.toNat + (0x0 : Reg).val := by
  decide

/-- The state loaded from is the one the dump left, with other values in its registers. -/
theorem witness_LoadUndoesDump :
    let s := numbered 0xFF0#16 0x202#16
    s.index.toNat + (0xF : Reg).val ≤ 0xFFF ∧ ∃ t, exec (.ldMemI 0xF) s = .next t ∧
      (t.setV 3 0x77#8).index = s.index ∧ (∀ a, (t.setV 3 0x77#8).byteAt a = t.byteAt a) ∧
      (t.setV 3 0x77#8).getV 3 ≠ s.getV 3 := by
  intro s
  obtain ⟨t, h, p⟩ := exists_of_nextSatisfies (exec (.ldMemI 0xF) s) (fun t =>
    t.index == s.index && decide ((t.setV 3 0x77#8).getV 3 ≠ s.getV 3)) (by decide +kernel)
  simp only [Bool.and_eq_true, decide_eq_true_eq, beq_iff_eq] at p
  exact ⟨by decide +kernel, t, h, p.1, fun _ => rfl, p.2⟩

/-- For each of the three writers: the store completes, at the last place where it fits; and a fetch from the state it
left whose word holds two stored bytes, the first stored byte only, or the last stored byte only. -/
theorem witness_FetchSeesStoredBytes :
    let s := numbered 0xFFD#16 0xFFE#16
    (s.index.toNat ≤ 0xFFD ∧ ∃ t, exec (.ldB 0xF) s = .next t ∧
      (t.setPc 0xFFD#16).pc.toNat ≤ 0xFFE ∧ fetchWord (t.setPc 0xFFD#16) = .ok 0x0001#16) ∧
    (s.index.toNat + (1 : Reg).val ≤ 0xFFF ∧ ∃ t, exec (.ldMemI 1) s = .next t ∧
      (t.setPc 0xFFC#16).pc.toNat ≤ 0xFFE ∧ fetchWord (t.setPc 0xFFC#16) = .ok 0x0001#16 ∧
      fetchWord (t.setPc 0xFFE#16) = .ok 0x0200#16) ∧
    ∃ t, hostStep (.loadProgram [0x60#8, 0x05#8]) s = .next (t, .loadOk) ∧
      fetchWord (t.setPc 0x200#16) = .ok 0x6005#16 ∧ fetchWord (t.setPc 0x1FF#16) = .ok 0x0060#16 := by
  intro s
  obtain ⟨t, ht, pt⟩ := exists_of_nextSatisfies (exec (.ldB 0xF) s) (fun t =>
    decide (fetchWord (t.setPc 0xFFD#16) = .ok 0x0001#16)) (by decide +kernel)
  obtain ⟨u, hu, pu⟩ := exists_of_nextSatisfies (exec (.ldMemI 1) s) (fun t =>
    decide (fetchWord (t.setPc 0xFFC#16) = .ok 0x0001#16 ∧ fetchWord (t.setPc 0xFFE#16) = .ok 0x0200#16))
    (by decide +kernel)
  exact ⟨⟨by decide +kernel, t, ht, by simp, of_decide_eq_true pt⟩,
    ⟨by decide +kernel, u, hu, by simp, of_decide_eq_true pu⟩, _, rfl, by decide +kernel, by decide +kernel⟩

theorem witness_KeySkipsTestTheKey : ((State.reset.setV 1 15#8).getV 1).toNat = (15 : Fin 16).val := by decide

theorem witness_KeyIndexAboveFifteenFaults :
    15 < ((State.reset.setV 1 16#8).getV 1).toNat ∧ 15 < ((State.reset.setV 1 0xFF#8).getV 1).toNat := by decide

theorem witness_KeyWaitTakesTheLowestKey :
    let s := (State.reset.setKey 3 true).setKey 9 true
    s.getKey 3 = true ∧ (∀ j < (3 : Fin 16), s.getKey j = false) ∧ (State.reset.setKey 15 true).getKey 15 = true ∧
    ∀ j < (15 : Fin 16), (State.reset.setKey 15 true).getKey j = false := by
  decide

theorem witness_KeyWaitRepeatsWithoutAKey :
    let s := State.reset.withFetchWord 16 0xF00A
    fetchWord s = .ok 0xF00A#16 ∧ decode 0xF00A#16 = .ok (.ldK 0) ∧ ∀ k, s.getKey k = false := by
  decide +kernel

theorem witness_SetKeyWritesOneKey : (15 : Fin 16).val = 15 ∧ 15 < 16 := by decide

theorem witness_SnapshotReturnsTheCells :
    (2047 : Fin 2048).val = (63 : Fin 64).val + (31 : Fin 32).val * 64 := by decide

/-- 3584 bytes fit at the default LOAD_ADDR, 3585 do not (HV1, HV2). -/
theorem witness_LoadProgramCopiesOrRefuses :
    (List.replicate 3584 0#8).length + State.reset.cfg.loadAddr.toNat ≤ 4096 ∧
    4096 < (List.replicate 3585 0#8).length + State.reset.cfg.loadAddr.toNat := by
  rw [List.length_replicate, List.length_replicate]
  decide

theorem witness_EveryStepKeepsInvariant : stateInv State.reset = true ∧ ∃ t, step State.reset = .next t :=
  ⟨by decide +kernel, by
    obtain ⟨t, h, -⟩ := exists_of_nextSatisfies (step State.reset) (fun _ => true) (by decide +kernel)
    exact ⟨t, h⟩⟩

theorem witness_EveryHostRunKeepsInvariantAndRecords :
    stateInv State.reset = true ∧
    ∃ t, hostRun [.loadProgram [0x00#8, 0xEE#8], .runCycle, .tickTimers, .reset] State.reset = .next t ∧
      t.faultRecord.length = 2 := by
  obtain ⟨t, h, p⟩ := exists_of_nextSatisfies
    (hostRun [.loadProgram [0x00#8, 0xEE#8], .runCycle, .tickTimers, .reset] State.reset)
    (fun t => t.faultRecord.length == 2) (by decide +kernel)
  exact ⟨by decide +kernel, t, h, by simpa using p⟩

/-- One instruction for each clause that changes the clause's piece of state. -/
theorem witness_OnlyListedInstructionsWriteEachPiece :
    let s := numbered 0x300#16 0x202#16
    nextSatisfies (exec (.ldDt 0) s) (fun t => t.dt != s.dt) = true ∧
    nextSatisfies (exec (.ldSt 0) s) (fun t => t.st != s.st) = true ∧
    nextSatisfies (exec (.call 0x300#12) s) (fun t => t.stack != s.stack && t.sp != s.sp) = true ∧
    nextSatisfies (exec .ret (s.setSp 1)) (fun t => t.sp != 1) = true ∧
    nextSatisfies (exec (.ldB 0) s) (fun t => t.mem != s.mem) = true ∧
    nextSatisfies (exec .cls (s.setCell 63 31 true)) (fun t => t.fb != (s.setCell 63 31 true).fb) = true ∧
    nextSatisfies (exec (.drw 0 1 0x0#4) s) (fun t => t.dirty != s.dirty) = true ∧
    nextSatisfies (exec (.ldI 0#12) s) (fun t => t.index != s.index) = true ∧
    nextSatisfies (exec (.sys 0#12) s) (fun t => t.diagLog != s.diagLog) = true ∧
    nextSatisfies (exec .ret s) (fun t => t.faultRecord != s.faultRecord) = true ∧
    nextSatisfies (exec (.skp 0xF) s) (fun t => t.faultRecord != s.faultRecord) = true ∧
    nextSatisfies (exec (.ldReg 0xE 0) s) (fun t => t.getV 0xE != s.getV 0xE) = true ∧
    nextSatisfies (exec (.addReg 0 1) s) (fun t => t.getV 0xF != s.getV 0xF) = true := by
  decide +kernel

theorem witness_ProgramsCannotReadLatchesOrSt : ∃ t, step (State.reset.withFetchWord 16 0x00E0) = .next t := by
  obtain ⟨t, h, -⟩ := exists_of_nextSatisfies (step (State.reset.withFetchWord 16 0x00E0)) (fun _ => true)
    (by decide +kernel)
  exact ⟨t, h⟩

theorem witness_SelfJumpLeavesStateUnchanged : atSelfJump (State.reset.withFetchWord 16 0x1200) = true := by
  decide +kernel

end Sys2Proof.Tests
end

section
/-! The call stack (spec/10_state.md rule R40): what a completed push leaves in the state. -/

namespace Sys2Proof.Machine

/-- A slot write followed by a write of SP, as push makes them, changes that slot and SP only. -/
theorem keeps_setSlot_setSp (s : State) (j : Fin 16) (a : Word) (d : Fin 17) :
    Keeps { slot := fun q => q.val = j.val, sp := True } s ((s.setSlot j a).setSp d) :=
  { Keeps.refl _ s with
    slot := fun q hq => by
      have hne : j ≠ q := fun e => hq (congrArg Fin.val e.symm)
      simp [hne]
    sp := fun h => absurd trivial h }

/-- Settles O19: the two cases of R40, SP = 16 and SP below 16, by `push_error` and `push_ok`. -/
theorem pushStoresAtDepthOrOverflows : Obligations.PushStoresAtDepthOrOverflows := by
  intro s a
  constructor
  case left =>
    intro hfull
    exact push_error a s hfull
  case right =>
    intro hroom
    refine ⟨_, push_ok a s hroom, ?storedAtDepth, rfl, rfl, keeps_setSlot_setSp s ⟨s.sp.val, hroom⟩ a _⟩
    case storedAtDepth =>
      intro j hj
      have hslot : (⟨s.sp.val, hroom⟩ : Fin 16) = j := Fin.ext hj.symm
      simp [hslot]

end Sys2Proof.Machine
end

section
/-! The memory primitives (spec/20_memory.md rule R72). -/

namespace Sys2Proof.Machine

/-- Below 0x1000 a write leaves its byte at its address and nothing else changed. -/
theorem memWrite_changes_one_byte (s : State) {a : Nat} (b : Byte) (h : a ≤ 0xFFF) :
    ∃ t, memWrite s a b = .ok t ∧ t.byteAt a = b ∧ Keeps { mem := fun q => q = a } s t := by
  have hread : (s.storeByte a b).byteAt a = b := by simp
  exact ⟨s.storeByte a b, memWrite_ok s b h, hread, keeps_storeByte s a b⟩

/-- Settles O9: above 0xFFF both primitives answer the fault, below it the read gives the byte and the write is
`memWrite_changes_one_byte`. -/
theorem memoryPrimitivesReadAndWriteOneByte : Obligations.MemoryPrimitivesReadAndWriteOneByte := by
  intro s a b
  constructor
  · intro above
    exact ⟨memRead_error s above, memWrite_error s b above⟩
  · intro inRange
    exact ⟨memRead_ok s inRange, memWrite_changes_one_byte s b inRange⟩

end Sys2Proof.Machine
end

section
/-! The instructions with a literal operand (spec/42_alu.md rules R160 and R161): each writes one register. -/

namespace Sys2Proof.Machine

theorem decode_asmXkk_ldImm (x : Reg) (kk : Byte) : decode (asmXkk 0x6#4 x kk) = .ok (.ldImm x kk) := by
  simp [decode]

theorem decode_asmXkk_addImm (x : Reg) (kk : Byte) : decode (asmXkk 0x7#4 x kk) = .ok (.addImm x kk) := by
  simp [decode]

theorem exec_ldImm (x : Reg) (kk : Byte) (s : State) : exec (.ldImm x kk) s = .next (s.setV x kk) := rfl

theorem exec_addImm (x : Reg) (kk : Byte) (s : State) :
    exec (.addImm x kk) s = .next (s.setV x (sumByte (s.getV x) kk)) := rfl

@[simp] theorem sumByte_toNat (a b : Byte) : (sumByte a b).toNat = (a.toNat + b.toNat) % 256 :=
  BitVec.toNat_ofNat _ 8

/-- What a register write does: the value is in that register, memory is the same data, and nothing else changes. -/
theorem setV_writes_one_register (s : State) (x : Reg) (b : Byte) :
    (s.setV x b).getV x = b ∧ (s.setV x b).mem = s.mem ∧ Keeps { v := fun r => r = x } s (s.setV x b) := by
  have hread : (s.setV x b).getV x = b := by simp
  exact ⟨hread, State.setV_mem s x b, keeps_setV s x b⟩

/-- Settles O28: the word decodes to LD Vx, kk, whose meaning is the one register write of kk. -/
theorem loadLiteralWritesOneRegister : Obligations.LoadLiteralWritesOneRegister := by
  intro s x kk
  exact ⟨decode_asmXkk_ldImm x kk, s.setV x kk, exec_ldImm x kk s, setV_writes_one_register s x kk⟩

/-- Settles O30: the word decodes to ADD Vx, kk, whose meaning is the one register write of the sum; no flag write
stands beside it, so the frame names V[x] alone. -/
theorem addLiteralWrapsWithoutFlag : Obligations.AddLiteralWrapsWithoutFlag := by
  intro s x kk
  obtain ⟨hread, hmem, hkeeps⟩ := setV_writes_one_register s x (sumByte (s.getV x) kk)
  refine ⟨decode_asmXkk_addImm x kk, _, exec_addImm x kk s, ?wraps, hmem, hkeeps⟩
  case wraps => rw [hread, sumByte_toNat]

end Sys2Proof.Machine
end

section
/-! The host's framebuffer snapshot (spec/60_exceptions.md rule R246): bit x + y*64 is the cell FB[x][y]. -/

namespace Sys2Proof.Machine

theorem hostStep_framebufferSnapshot (s : State) :
    hostStep .framebufferSnapshot s = .next (s, .bits (snapshot s)) := rfl

theorem snapshot_getElem (s : State) {i : Nat} (hi : i < 2048) :
    (snapshot s)[i] = s.getCell (Fin.ofNat 64 i) (Fin.ofNat 32 (i / 64)) := by
  simp [snapshot]

/-- A bit's number names its column: the row's part is a multiple of the 64 columns. -/
theorem snapshot_column (x : Fin 64) (y : Fin 32) : Fin.ofNat 64 (x.val + y.val * 64) = x := by
  ext
  simp only [Fin.val_ofNat]
  omega

/-- A bit's number names its row: the column is below 64, so it adds nothing to the quotient. -/
theorem snapshot_row (x : Fin 64) (y : Fin 32) : Fin.ofNat 32 ((x.val + y.val * 64) / 64) = y := by
  ext
  simp only [Fin.val_ofNat]
  omega

/-- Settles O53: the operation answers with `snapshot s` beside the state itself, and the number x + y*64 of a bit
names the column x and the row y. -/
theorem snapshotReturnsTheCells : Obligations.SnapshotReturnsTheCells := by
  intro s
  refine ⟨snapshot s, hostStep_framebufferSnapshot s, ?cells⟩
  case cells =>
    intro x y k hk
    rw [snapshot_getElem s k.isLt, hk, snapshot_column, snapshot_row]

end Sys2Proof.Machine
end

section
/-! The decoder and the encoder (spec/30_encoding.md): decode undoes encode, encode gives a decoded word back with
its ignored bits zero, and the decoder rejects exactly the unknown patterns of rule R112. -/

namespace Sys2Proof

open Sys2Proof.Machine

/-! A word is put together again from its fields (R103). -/

theorem asmNnn_fields {w : Word} {op : Nibble} (h : fieldOp w = op) : asmNnn op (fieldNnn w) = w := by
  apply BitVec.eq_of_toNat_eq
  rw [← h, asmNnn_toNat, fieldOp_toNat, fieldNnn_toNat]
  have := w.isLt
  omega

theorem asmXkk_fields {w : Word} {op : Nibble} (h : fieldOp w = op) : asmXkk op (fieldX w) (fieldKk w) = w := by
  apply BitVec.eq_of_toNat_eq
  rw [← h, asmXkk_toNat, fieldOp_toNat, fieldX_val, fieldKk_toNat]
  have := w.isLt
  omega

theorem asmXyn_fields {w : Word} {op : Nibble} (h : fieldOp w = op) :
    asmXyn op (fieldX w) (fieldY w) (fieldN w) = w := by
  apply BitVec.eq_of_toNat_eq
  rw [← h, asmXyn_toNat, fieldOp_toNat, fieldX_val, fieldY_val, fieldN_toNat]
  have := w.isLt
  omega

theorem lowByte_fieldNnn (w : Word) : lowByte (fieldNnn w) = fieldKk w := by
  apply BitVec.eq_of_toNat_eq
  rw [lowByte_toNat, fieldNnn_toNat, fieldKk_toNat]
  omega

/-- A field with a known value, as the decoder's tables compare it, is that literal. -/
theorem eq_ofNat_of_toNat_eq {n k : Nat} {b : BitVec n} (h : b.toNat = k) : b = BitVec.ofNat n k :=
  BitVec.eq_of_toNat_eq (by rw [BitVec.toNat_ofNat, ← h, Nat.mod_eq_of_lt b.isLt])

/-! Decode after encode. -/

/-- A well-formed SYS is not read as CLS or RET (R107, R116). -/
theorem decode_encode_sys (nnn : Addr12) (h : (Instr.sys nnn).wellFormed = true) :
    decode (encode (.sys nnn)) = .ok (.sys nnn) := by
  simp only [Instr.wellFormed, sysOperandOk, Bool.and_eq_true, bne_iff_ne] at h
  obtain ⟨notCls, notRet⟩ := h
  simp only [decode, encode, decode0, fieldOp_asmNnn, fieldNnn_asmNnn, fieldKk_asmNnn, BitVec.toNat_ofNat]
  split
  next hkk => exact absurd (eq_ofNat_of_toNat_eq hkk) notCls
  next hkk => exact absurd (eq_ofNat_of_toNat_eq hkk) notRet
  next => rfl

/-- The decoder undoes the encoder on every well-formed instruction. -/
theorem decode_encode (i : Instr) (h : i.wellFormed = true) : decode (encode i) = .ok i := by
  cases i
  case sys nnn => exact decode_encode_sys nnn h
  case cls | ret => decide
  all_goals simp [decode, encode, decode8, decodeE, decodeF]

/-- The two bytes the encoder lays out are read back as the word, the rest untouched (R75, R102). -/
theorem decodeBytes_encodeBytes {i : Instr} (h : decode (encode i) = .ok i) (rest : List Byte) :
    decodeBytes (encodeBytes i ++ rest) = .ok (i, rest) := by
  simp [decodeBytes, encodeBytes, wordOfBytes_bytes, h]

/-- Settles O2: `decode_encode`, and on bytes the same through `wordOfBytes_bytes`. -/
theorem decodeOfEncodeIsIdentity : Obligations.DecodeOfEncodeIsIdentity := by
  intro i h
  exact ⟨decode_encode i h, decodeBytes_encodeBytes (decode_encode i h)⟩

/-! Encode after decode: one lemma for each secondary table, then the primary one. -/

/-- Op 0: what is read is CLS, RET or a well-formed SYS (R107). -/
theorem encode_of_decode0 {w : Word} {i : Instr} (h : decode0 w = .ok i) :
    i.wellFormed = true ∧ encode i =
      if fieldKk w = 0xE0#8 ∨ fieldKk w = 0xEE#8 then asmXkk 0x0#4 0x0 (fieldKk w)
      else asmNnn 0x0#4 (fieldNnn w) := by
  unfold decode0 at h
  split at h <;> cases h
  next hkk => simp [eq_ofNat_of_toNat_eq hkk, Instr.wellFormed, encode, asmXkk, regNibble]
  next hkk => simp [eq_ofNat_of_toNat_eq hkk, Instr.wellFormed, encode, asmXkk, regNibble]
  next notCls notRet =>
    have hE0 : fieldKk w ≠ 0xE0#8 := fun e => notCls (by rw [e]; rfl)
    have hEE : fieldKk w ≠ 0xEE#8 := fun e => notRet (by rw [e]; rfl)
    simp [Instr.wellFormed, sysOperandOk, lowByte_fieldNnn, encode, hE0, hEE]

/-- Op 8 (R108). -/
theorem encode_of_decode8 {w : Word} {i : Instr} (h : decode8 w = .ok i) :
    i.wellFormed = true ∧ encode i = asmXyn 0x8#4 (fieldX w) (fieldY w) (fieldN w) := by
  unfold decode8 at h
  split at h <;> cases h
  all_goals rename_i hn; simp [eq_ofNat_of_toNat_eq hn, Instr.wellFormed, encode]

/-- Op E (R109). -/
theorem encode_of_decodeE {w : Word} {i : Instr} (h : decodeE w = .ok i) :
    i.wellFormed = true ∧ encode i = asmXkk 0xE#4 (fieldX w) (fieldKk w) := by
  unfold decodeE at h
  split at h <;> cases h
  all_goals rename_i hkk; simp [eq_ofNat_of_toNat_eq hkk, Instr.wellFormed, encode]

/-- Op F (R110). -/
theorem encode_of_decodeF {w : Word} {i : Instr} (h : decodeF w = .ok i) :
    i.wellFormed = true ∧ encode i = asmXkk 0xF#4 (fieldX w) (fieldKk w) := by
  unfold decodeF at h
  split at h <;> cases h
  all_goals rename_i hkk; simp [eq_ofNat_of_toNat_eq hkk, Instr.wellFormed, encode]

/-- Only the rows of op 0, 5 and 9 ignore bits (R107, R111). -/
theorem canonicalWord_eq_self {w : Word} (h0 : fieldOp w ≠ 0x0#4) (h5 : fieldOp w ≠ 0x5#4)
    (h9 : fieldOp w ≠ 0x9#4) :
    canonicalWord w = w := by
  simp [canonicalWord, h0, h5, h9]

theorem canonicalWord_op0 {w : Word} (h : fieldOp w = 0x0#4) : canonicalWord w =
    if fieldKk w = 0xE0#8 ∨ fieldKk w = 0xEE#8 then asmXkk 0x0#4 0x0 (fieldKk w) else asmNnn 0x0#4 (fieldNnn w) := by
  simp [canonicalWord, h, asmNnn_fields h]

theorem canonicalWord_op5 {w : Word} (h : fieldOp w = 0x5#4) :
    canonicalWord w = asmXyn 0x5#4 (fieldX w) (fieldY w) 0x0#4 := by
  simp [canonicalWord, h]

theorem canonicalWord_op9 {w : Word} (h : fieldOp w = 0x9#4) :
    canonicalWord w = asmXyn 0x9#4 (fieldX w) (fieldY w) 0x0#4 := by
  simp [canonicalWord, h]

/-- A row that ignores no bit, once its encoding is known to be the word itself. -/
theorem canonical_of_encode_eq {w : Word} {i : Instr} {op : Nibble} (hop : fieldOp w = op)
    (hrow : op ≠ 0x0#4 ∧ op ≠ 0x5#4 ∧ op ≠ 0x9#4) (h : i.wellFormed = true ∧ encode i = w) :
    i.wellFormed = true ∧ encode i = canonicalWord w := by
  subst hop
  obtain ⟨h0, h5, h9⟩ := hrow
  rwa [canonicalWord_eq_self h0 h5 h9]

/-- What the decoder accepts is well formed and encodes to the word with its ignored bits zero. -/
theorem encode_of_decode {w : Word} {i : Instr} (h : decode w = .ok i) :
    i.wellFormed = true ∧ encode i = canonicalWord w := by
  unfold decode at h
  split at h
  case h_1 hop =>
    rw [canonicalWord_op0 (eq_ofNat_of_toNat_eq hop)]
    exact encode_of_decode0 h
  case h_6 hop => cases h; exact ⟨rfl, (canonicalWord_op5 (eq_ofNat_of_toNat_eq hop)).symm⟩
  case h_10 hop => cases h; exact ⟨rfl, (canonicalWord_op9 (eq_ofNat_of_toNat_eq hop)).symm⟩
  case h_9 hop =>
    refine canonical_of_encode_eq (eq_ofNat_of_toNat_eq hop) (by decide) ?_
    rw [← asmXyn_fields (eq_ofNat_of_toNat_eq hop)]
    simpa using encode_of_decode8 h
  case h_15 hop =>
    refine canonical_of_encode_eq (eq_ofNat_of_toNat_eq hop) (by decide) ?_
    rw [← asmXkk_fields (eq_ofNat_of_toNat_eq hop)]
    simpa using encode_of_decodeE h
  case h_16 hop =>
    refine canonical_of_encode_eq (eq_ofNat_of_toNat_eq hop) (by decide) ?_
    rw [← asmXkk_fields (eq_ofNat_of_toNat_eq hop)]
    simpa using encode_of_decodeF h
  case h_2 hop | h_3 hop | h_11 hop | h_12 hop =>
    cases h
    exact canonical_of_encode_eq (eq_ofNat_of_toNat_eq hop) (by decide)
      ⟨rfl, asmNnn_fields (eq_ofNat_of_toNat_eq hop)⟩
  case h_4 hop | h_5 hop | h_7 hop | h_8 hop | h_13 hop =>
    cases h
    exact canonical_of_encode_eq (eq_ofNat_of_toNat_eq hop) (by decide)
      ⟨rfl, asmXkk_fields (eq_ofNat_of_toNat_eq hop)⟩
  case h_14 hop =>
    cases h
    exact canonical_of_encode_eq (eq_ofNat_of_toNat_eq hop) (by decide)
      ⟨rfl, asmXyn_fields (eq_ofNat_of_toNat_eq hop)⟩
  case h_17 => cases h

/-- Settles O3: `encode_of_decode`, row by row of the primary table. -/
theorem encodeOfDecodeIsCanonicalWord : Obligations.EncodeOfDecodeIsCanonicalWord := by
  intro w i h
  exact encode_of_decode h

/-! Rejection (R112). -/

/-- A decoder's answer r for w: the rejection that names w when `unknown`, an instruction otherwise. -/
def RejectsExactly (unknown : Bool) (w : Word) (r : Except DecodeError Instr) : Prop :=
  (unknown = true → r = .error (.unknownInstruction w)) ∧ (unknown = false → ∃ i, r = .ok i)

theorem rejectsExactly_ok (w : Word) (i : Instr) : RejectsExactly false w (.ok i) :=
  ⟨fun h => (nomatch h), fun _ => ⟨i, rfl⟩⟩

theorem rejectsExactly_error (w : Word) : RejectsExactly true w (.error (.unknownInstruction w)) :=
  ⟨fun _ => rfl, fun h => (nomatch h)⟩

theorem decode0_accepts (w : Word) : RejectsExactly false w (decode0 w) := by
  unfold decode0
  split <;> exact rejectsExactly_ok w _

theorem decode8_rejects (w : Word) : RejectsExactly
    ([0x8#4, 0x9#4, 0xA#4, 0xB#4, 0xC#4, 0xD#4, 0xF#4].contains (fieldN w)) w (decode8 w) := by
  unfold decode8
  split
  case h_10 =>
    have unknown : [0x8#4, 0x9#4, 0xA#4, 0xB#4, 0xC#4, 0xD#4, 0xF#4].contains (fieldN w) = true := by
      have := (fieldN w).isLt
      simp only [imp_false] at *
      simp [← BitVec.toNat_inj]
      omega
    rw [unknown]
    exact rejectsExactly_error w
  all_goals
    rename_i hn
    rw [eq_ofNat_of_toNat_eq hn]
    exact rejectsExactly_ok w _

theorem decodeE_rejects (w : Word) :
    RejectsExactly (!([0x9E#8, 0xA1#8].contains (fieldKk w))) w (decodeE w) := by
  unfold decodeE
  split
  case h_3 =>
    have unknown : (!([0x9E#8, 0xA1#8].contains (fieldKk w))) = true := by
      simp_all [← BitVec.toNat_inj]
    rw [unknown]
    exact rejectsExactly_error w
  all_goals
    rename_i hkk
    rw [eq_ofNat_of_toNat_eq hkk]
    exact rejectsExactly_ok w _

theorem decodeF_rejects (w : Word) : RejectsExactly
    (!([0x07#8, 0x0A#8, 0x15#8, 0x18#8, 0x1E#8, 0x29#8, 0x33#8, 0x55#8, 0x65#8].contains (fieldKk w))) w
    (decodeF w) := by
  unfold decodeF
  split
  case h_10 =>
    have unknown : (!([0x07#8, 0x0A#8, 0x15#8, 0x18#8, 0x1E#8, 0x29#8, 0x33#8, 0x55#8, 0x65#8].contains
        (fieldKk w))) = true := by
      simp_all [← BitVec.toNat_inj]
    rw [unknown]
    exact rejectsExactly_error w
  all_goals
    rename_i hkk
    rw [eq_ofNat_of_toNat_eq hkk]
    exact rejectsExactly_ok w _

/-- Outside ops 8, E and F every word is an instruction (R106, R112). -/
theorem isUnknownWord_eq_false {w : Word} {k : Nat} (hop : (fieldOp w).toNat = k)
    (hk : k ≠ 8 ∧ k ≠ 14 ∧ k ≠ 15) : isUnknownWord w = false := by
  simp [isUnknownWord, ← BitVec.toNat_inj, hop, hk]

theorem decode_rejects (w : Word) : RejectsExactly (isUnknownWord w) w (decode w) := by
  unfold decode
  split
  case h_1 hop =>
    rw [isUnknownWord_eq_false hop (by decide)]
    exact decode0_accepts w
  case h_9 hop => simpa [isUnknownWord, eq_ofNat_of_toNat_eq hop] using decode8_rejects w
  case h_15 hop => simpa [isUnknownWord, eq_ofNat_of_toNat_eq hop] using decodeE_rejects w
  case h_16 hop => simpa [isUnknownWord, eq_ofNat_of_toNat_eq hop] using decodeF_rejects w
  case h_17 =>
    have := (fieldOp w).isLt
    simp only [imp_false] at *
    omega
  all_goals
    rename_i hop
    rw [isUnknownWord_eq_false hop (by decide)]
    exact rejectsExactly_ok w _

/-- Settles O4: table by table, the words without a row are the unknown patterns. -/
theorem decoderRejectsExactlyUnknownWords : Obligations.DecoderRejectsExactlyUnknownWords :=
  decode_rejects

/-- Settles O1: each word is read by the opcode map. -/
theorem sampleWordsDecode : Obligations.SampleWordsDecode := by
  unfold Obligations.SampleWordsDecode
  decide

end Sys2Proof
end

section
/-! Frames: what each update of the state leaves unchanged, and how frames widen and combine. -/

namespace Sys2Proof.Machine

/-- Whatever c lets change, d lets change. -/
structure Changes.Within (c d : Changes) : Prop where
  mem : ∀ a, c.mem a → d.mem a
  v : ∀ r, c.v r → d.v r
  index : c.index → d.index
  pc : c.pc → d.pc
  slot : ∀ j, c.slot j → d.slot j
  sp : c.sp → d.sp
  dt : c.dt → d.dt
  st : c.st → d.st
  key : ∀ k, c.key k → d.key k
  cell : ∀ x y, c.cell x y → d.cell x y
  dirty : c.dirty → d.dirty
  beep : c.beep → d.beep
  faultRecord : c.faultRecord → d.faultRecord
  diagLog : c.diagLog → d.diagLog
  draws : c.draws → d.draws

theorem Changes.Within.refl (c : Changes) : c.Within c := by
  constructor <;> intros <;> assumption

/-- A frame may be widened. -/
theorem Keeps.mono {c d : Changes} {s t : State} (h : Keeps c s t) (w : c.Within d) : Keeps d s t where
  cfg := h.cfg
  mem a n := h.mem a (mt (w.mem a) n)
  v r n := h.v r (mt (w.v r) n)
  index n := h.index (mt w.index n)
  pc n := h.pc (mt w.pc n)
  slot j n := h.slot j (mt (w.slot j) n)
  sp n := h.sp (mt w.sp n)
  dt n := h.dt (mt w.dt n)
  st n := h.st (mt w.st n)
  key k n := h.key k (mt (w.key k) n)
  cell x y n := h.cell x y (mt (w.cell x y) n)
  dirty n := h.dirty (mt w.dirty n)
  beep n := h.beep (mt w.beep n)
  faultRecord n := h.faultRecord (mt w.faultRecord n)
  diagLog n := h.diagLog (mt w.diagLog n)
  draws n := h.draws (mt w.draws n)

/-! One lemma for each update of one piece. -/

variable (s : State)

theorem keeps_setIndex (w : Word) : Keeps { index := True } s (s.setIndex w) :=
  { Keeps.refl _ s with index := fun h => absurd trivial h }

theorem keeps_setPc (w : Word) : Keeps { pc := True } s (s.setPc w) :=
  { Keeps.refl _ s with pc := fun h => absurd trivial h }

theorem keeps_setDt (b : Byte) : Keeps { dt := True } s (s.setDt b) :=
  { Keeps.refl _ s with dt := fun h => absurd trivial h }

theorem keeps_setSt (b : Byte) : Keeps { st := True } s (s.setSt b) :=
  { Keeps.refl _ s with st := fun h => absurd trivial h }

theorem keeps_setDirty (b : Bool) : Keeps { dirty := True } s (s.setDirty b) :=
  { Keeps.refl _ s with dirty := fun h => absurd trivial h }

theorem keeps_setBeep (b : Bool) : Keeps { beep := True } s (s.setBeep b) :=
  { Keeps.refl _ s with beep := fun h => absurd trivial h }

theorem keeps_setKey (k : Fin 16) (b : Bool) : Keeps { key := fun q => q = k } s (s.setKey k b) :=
  { Keeps.refl _ s with key := fun q hq => by simp [Ne.symm hq] }

theorem keeps_takeFault (f : CpuFault) : Keeps { faultRecord := True } s (takeFault f s) :=
  { Keeps.refl _ s with faultRecord := fun h => absurd trivial h }

theorem keeps_reportUnknown (w p : Word) : Keeps { diagLog := True } s (reportUnknown w p s) :=
  { Keeps.refl _ s with diagLog := fun h => absurd trivial h }

/-- A pop followed by a jump changes SP and PC only. -/
theorem keeps_setSp_setPc (d : Fin 17) (w : Word) : Keeps { sp := True, pc := True } s ((s.setSp d).setPc w) :=
  { Keeps.refl _ s with sp := fun h => absurd trivial h, pc := fun h => absurd trivial h }

/-- A push followed by a jump changes one slot, SP and PC only. -/
theorem keeps_setSlot_setSp_setPc (j : Fin 16) (a : Word) (d : Fin 17) (w : Word) :
    Keeps { slot := fun q => q.val = j.val, sp := True, pc := True } s (((s.setSlot j a).setSp d).setPc w) :=
  { keeps_setSlot_setSp s j a d with pc := fun h => absurd trivial h }

/-- A register write beside a draw changes that register and the count only. -/
theorem keeps_setV_countDraw (r : Reg) (b : Byte) :
    Keeps { v := fun q => q = r, draws := True } s (s.setV r b).countDraw :=
  { keeps_setV s r b with draws := fun h => absurd trivial h }

/-! A frame, then one more write. -/

variable {s} {t : State} {c : Changes}

theorem Keeps.setIndex (h : Keeps c s t) (w : Word) : Keeps { c with index := True } s (t.setIndex w) :=
  { h with index := fun n => absurd trivial n }

theorem Keeps.countDraw (h : Keeps c s t) : Keeps { c with draws := True } s t.countDraw :=
  { h with draws := fun n => absurd trivial n }

theorem Keeps.takeFault (h : Keeps c s t) (f : CpuFault) : Keeps { c with faultRecord := True } s (takeFault f t) :=
  { h with faultRecord := fun n => absurd trivial n }

/-! A block written or loaded. -/

/-- A block of bytes written changes memory there only. -/
theorem Wrote.keeps {base : Nat} {bs : List Byte} (h : Wrote base bs s t) :
    Keeps { mem := fun a => base ≤ a ∧ a < base + bs.length } s t := by
  have outside := h.outside
  rw [h.rest] at outside ⊢
  exact { Keeps.refl _ s with mem := fun a n => outside a (by omega) }

/-- A block of registers loaded changes those registers only. -/
theorem Loaded.keeps {base count : Nat} (h : Loaded base count s t) :
    Keeps { v := fun r => r.val < count } s t := by
  have outside := h.outside
  rw [h.rest] at outside ⊢
  exact { Keeps.refl _ s with v := fun r n => outside r (by omega) }

theorem Loaded.mem {base count : Nat} (h : Loaded base count s t) : t.mem = s.mem := by
  rw [h.rest]

end Sys2Proof.Machine
end

section
/-! The cycle (spec/30_encoding.md rules R100, R101, R112): fetch, the three ways a cycle goes on, and the end of a
run at a self-jump (spec/70_reset_and_hazards.md rule R278). -/

namespace Sys2Proof.Machine

/-- A meaning is a function: it has one next state. -/
theorem next_unique {o : Host.Outcome State Fault Refusal} {t u : State} (h : o = .next t) (h' : o = .next u) :
    t = u :=
  Host.Outcome.next.inj (h.symm.trans h')

theorem step_of_decoded {s : State} {w : Word} {i : Instr} (hw : fetchWord s = .ok w) (hi : decode w = .ok i) :
    step s = exec i (advancePc s) := by
  simp only [step, hw, runWord, hi]

theorem step_of_unknown {s : State} {w : Word} {e : DecodeError} (hw : fetchWord s = .ok w)
    (he : decode w = .error e) : step s = .next (runUnknown w (advancePc s)) := by
  simp only [step, hw, runWord, he]

theorem step_of_fetch_fault {s : State} {f : CpuFault} (hf : fetchWord s = .error f) :
    step s = .next (takeFault f s) := by
  simp only [step, hf]

/-- During a handler the fetch address is where PC stood (R34). -/
@[simp] theorem fetchAddr_advancePc (s : State) : fetchAddr (advancePc s) = s.pc := by
  simp [fetchAddr, advancePc]

/-- An unknown word advances PC and is logged; nothing else changes. -/
theorem keeps_runUnknown_advancePc (w : Word) (s : State) :
    Keeps { pc := True, diagLog := True } s (runUnknown w (advancePc s)) :=
  { Keeps.refl _ s with pc := fun h => absurd trivial h, diagLog := fun h => absurd trivial h }

/-- Settles O5: with PC up to 0xFFE the fetch gives the two bytes' word, and the step is the decoded one. -/
theorem stepRunsDecodedInstruction : Obligations.StepRunsDecodedInstruction := by
  intro s i hpc hi
  exact step_of_decoded (fetchWord_ok s hpc) hi

/-- Settles O6: `fetchWord_error` names the first failing address, and the step records it. -/
theorem fetchFaultChangesOnlyTheRecord : Obligations.FetchFaultChangesOnlyTheRecord := by
  intro s hpc
  have firstFailing : max s.pc.toNat 0x1000 = if s.pc.toNat ≤ 0xFFF then 0x1000 else s.pc.toNat := by
    split <;> omega
  refine ⟨_, step_of_fetch_fault (fetchWord_error s hpc), ?_, rfl, keeps_takeFault s _⟩
  rw [takeFault_faultRecord, firstFailing]

/-- Settles O7: the decoder rejects the word, and the cycle logs it at the address it was fetched from. -/
theorem unknownWordIsLoggedNoOp : Obligations.UnknownWordIsLoggedNoOp := by
  intro s w hw hunknown
  have hdecode := (decode_rejects w).1 hunknown
  refine ⟨_, step_of_unknown hw hdecode, rfl, ?_, rfl, keeps_runUnknown_advancePc w s⟩
  simp [runUnknown, advancePc, fetchAddr]

/-- A self-jump is a JP to the address it was fetched from. -/
theorem decoded_of_atSelfJump {s : State} (h : atSelfJump s = true) :
    ∃ w nnn, fetchWord s = .ok w ∧ decode w = .ok (.jp nnn) ∧ addrTarget nnn = s.pc := by
  unfold atSelfJump at h
  split at h
  next w hw =>
    simp only [Bool.and_eq_true, beq_iff_eq] at h
    obtain ⟨hop, htarget⟩ := h
    exact ⟨w, fieldNnn w, hw, by simp [decode, hop], htarget⟩
  next => cases h

/-- Settles O60: the jump takes the advanced PC back to where it stood, and JP writes nothing else. -/
theorem selfJumpLeavesStateUnchanged : Obligations.SelfJumpLeavesStateUnchanged := by
  intro s h
  obtain ⟨w, nnn, hw, hi, htarget⟩ := decoded_of_atSelfJump h
  calc step s = .next ((advancePc s).setPc (addrTarget nnn)) := step_of_decoded hw hi
    _ = .next s := by rw [htarget]; rfl

end Sys2Proof.Machine
end

section
/-! Reset and the host's operations (spec/70_reset_and_hazards.md rule R270; spec/60_exceptions.md rules R241 to
R249). -/

namespace Sys2Proof.Machine

/-! The state of a fresh machine, piece by piece (R270). -/

variable (c : Cfg)

@[simp] theorem State.initial_getV (r : Reg) : (State.initial c).getV r = 0#8 := by
  simp [State.initial, State.getV]

@[simp] theorem State.initial_getSlot (j : Fin 16) : (State.initial c).getSlot j = 0#16 := by
  simp [State.initial, State.getSlot]

@[simp] theorem State.initial_getKey (k : Fin 16) : (State.initial c).getKey k = false := by
  simp [State.initial, State.getKey]

@[simp] theorem State.initial_getCell (x : Fin 64) (y : Fin 32) : (State.initial c).getCell x y = false :=
  cellOf_blankFb x y

theorem State.initial_pc_toNat : (State.initial c).pc.toNat = c.loadAddr.toNat := by
  have := c.loadAddr.isLt
  simp [State.initial]
  omega

/-- The default glyphs, read from memory at reset (R43, R270). -/
theorem reset_glyph_bytes :
    (List.range 80).map (fun d => State.reset.byteAt (0x050 + d)) = glyphsLow ++ glyphsHigh := by
  decide

/-- Settles O10: the fields are those of `State.initial`; memory reads as `resetByte`. -/
theorem resetStateHasResetValues : Obligations.ResetStateHasResetValues := by
  have outside : ∀ a, a < 0x050 ∨ 0x0A0 ≤ a → State.reset.byteAt a = 0#8 := fun a h =>
    resetByte_outside defaultCfg a h
  exact ⟨rfl, rfl, rfl, rfl, rfl, rfl, rfl, State.initial_getV _, State.initial_getSlot _, State.initial_getKey _,
    State.initial_getCell _, outside, reset_glyph_bytes, rfl, rfl, rfl⟩

/-- Settles O11: after reset() every field but the records is that of a fresh machine with the same parameters. -/
theorem hostResetRestoresResetState : Obligations.HostResetRestoresResetState := by
  intro s
  exact ⟨hostReset s, rfl, rfl, State.initial_pc_toNat s.cfg, rfl, rfl, rfl, rfl, rfl, rfl,
    State.initial_getV s.cfg, State.initial_getSlot s.cfg, State.initial_getKey s.cfg, State.initial_getCell s.cfg,
    resetByte_glyph s.cfg, resetByte_outside s.cfg, rfl, rfl, rfl⟩

/-- Settles O12: a fresh memory lists no byte, and the default parameters are legal. -/
theorem resetStateMeetsInvariant : Obligations.ResetStateMeetsInvariant := by
  have legal : defaultCfg.wf = true := by decide
  exact Bool.and_eq_true_iff.mpr ⟨State.initial_mem_wf defaultCfg, legal⟩

/-! Ticks (R241). -/

theorem toNat_sub_one_of_ne_zero {b : Byte} (h : b ≠ 0#8) : (b - 1#8).toNat = b.toNat - 1 := by
  bv_omega

theorem hostTick_dt (s : State) : (hostTick s).dt.toNat = s.dt.toNat - 1 := by
  unfold hostTick
  by_cases hdt : s.dt = 0#8
  · simp only [hdt, if_true]
    split_ifs <;> simp [hdt]
  · simp only [hdt, if_false]
    split_ifs <;> exact toNat_sub_one_of_ne_zero hdt

theorem hostTick_st (s : State) : (hostTick s).st.toNat = s.st.toNat - 1 := by
  unfold hostTick
  by_cases hst : s.st = 0#8
  · simp only [hst, if_true]
    split_ifs <;> simp [hst]
  by_cases hst1 : s.st = 1#8
  · simp [hst1]
  · simp [hst, hst1, toNat_sub_one_of_ne_zero hst]

theorem hostTick_beep (s : State) : (hostTick s).beep = (s.beep || s.st == 1#8) := by
  unfold hostTick
  by_cases hst : s.st = 0#8
  · simp only [hst, if_true]
    split_ifs <;> simp
  by_cases hst1 : s.st = 1#8
  · simp [hst1]
  · simp only [hst, hst1, if_false]
    split_ifs <;> simp [hst1]

/-- A tick writes DT, ST and BEEP: the rest is the same data. -/
theorem hostTick_rest (s : State) :
    hostTick s = { s with dt := (hostTick s).dt, st := (hostTick s).st, beep := (hostTick s).beep } := by
  unfold hostTick
  dsimp only
  split_ifs <;> rfl

theorem keeps_hostTick (s : State) : Keeps { dt := True, st := True, beep := True } s (hostTick s) := by
  rw [hostTick_rest]
  exact { Keeps.refl _ s with
    dt := fun h => absurd trivial h, st := fun h => absurd trivial h, beep := fun h => absurd trivial h }

/-- Settles O50: DT, ST and BEEP by the three lemmas, everything else by `hostTick_rest`. -/
theorem tickDecrementsTimers : Obligations.TickDecrementsTimers := by
  intro s
  exact ⟨hostTick s, rfl, hostTick_dt s, hostTick_st s, hostTick_beep s, by rw [hostTick_rest],
    keeps_hostTick s⟩

/-- Settles O51, by induction on the number of ticks, from every state. -/
theorem ticksCountDown : Obligations.TicksCountDown := by
  intro s n
  induction n generalizing s with
  | zero => exact ⟨s, rfl, rfl, rfl, (or_iff_left (by omega)).symm⟩
  | succ n ih =>
    obtain ⟨t, hrun, hdt, hst, hbeep⟩ := ih (hostTick s)
    rw [hostTick_dt] at hdt
    rw [hostTick_st, hostTick_beep, Bool.or_eq_true, beq_iff_eq, ← BitVec.toNat_inj] at hbeep
    rw [hostTick_st] at hst
    refine ⟨t, hrun, by omega, by omega, ?_⟩
    have one : (1#8 : Byte).toNat = 1 := rfl
    have firstOrLater : s.st.toNat = 1 ∨ (1 ≤ s.st.toNat - 1 ∧ s.st.toNat - 1 ≤ n) ↔
        1 ≤ s.st.toNat ∧ s.st.toNat ≤ n + 1 := by omega
    rw [hbeep, one, or_assoc, firstOrLater]

/-! The other host operations (R79, R245, R247, R248). -/

/-- Settles O52: an index in range is one key write, an index above 15 is refused. -/
theorem setKeyWritesOneKey : Obligations.SetKeyWritesOneKey := by
  intro s index pressed
  constructor
  · rintro k rfl
    exact ⟨s.setKey k pressed, by simp [hostStep, hostSetKey], by simp, rfl, keeps_setKey s k pressed⟩
  · intro above
    simp only [hostStep, hostSetKey]
    rw [dif_neg (by omega)]

/-- Settles O54: each read answers the latch and clears it alone. -/
theorem latchReadsClearTheLatch : Obligations.LatchReadsClearTheLatch := by
  intro s
  exact ⟨⟨s.setDirty false, rfl, rfl, rfl, keeps_setDirty s false⟩,
    ⟨s.setBeep false, rfl, rfl, rfl, keeps_setBeep s false⟩⟩

theorem hostStep_loadProgram_fits {s : State} {bytes : List Byte}
    (h : bytes.length + s.cfg.loadAddr.toNat ≤ 4096) :
    hostStep (.loadProgram bytes) s = .next (storeBytes s.cfg.loadAddr.toNat bytes s, .loadOk) := by
  simp only [hostStep, hostLoad]
  rw [if_neg (by simp only [Config.memSize]; omega)]

theorem hostStep_loadProgram_too_large {s : State} {bytes : List Byte}
    (h : 4096 < bytes.length + s.cfg.loadAddr.toNat) :
    hostStep (.loadProgram bytes) s = .next (s, .loadErr (.programTooLarge bytes.length)) := by
  simp only [hostStep, hostLoad]
  rw [if_pos (by simp only [Config.memSize]; omega)]

/-- Settles O55: a load that fits writes its block (`storeBytes_wrote`), one that does not returns the state. -/
theorem loadProgramCopiesOrRefuses : Obligations.LoadProgramCopiesOrRefuses := by
  intro s bytes
  constructor
  · intro fits
    have written := storeBytes_wrote s.cfg.loadAddr.toNat bytes s
    exact ⟨_, hostStep_loadProgram_fits fits, written.inside, written.keeps⟩
  · exact hostStep_loadProgram_too_large

end Sys2Proof.Machine
end

section
/-! The control-flow instructions (spec/41_control_flow.md): SYS, the jumps, CALL and RET, the skips. -/

namespace Sys2Proof.Machine

/-! SYS and the jumps (R140, R142, R148). -/

theorem exec_sys (nnn : Addr12) (s : State) :
    exec (.sys nnn) s = .next (reportUnknown (encode (.sys nnn)) (fetchAddr s) s) := rfl

theorem exec_jp (nnn : Addr12) (s : State) : exec (.jp nnn) s = .next (s.setPc (addrTarget nnn)) := rfl

theorem exec_jpV0 (nnn : Addr12) (s : State) :
    exec (.jpV0 nnn) s = .next (s.setPc (addrTarget nnn + (s.getV (jumpOffsetReg s.cfg nnn)).setWidth 16)) := rfl

/-- The word of SYS is its address field: the op nibble is 0 (R103). -/
theorem encode_sys (nnn : Addr12) : encode (.sys nnn) = BitVec.ofNat 16 nnn.toNat := by
  have := nnn.isLt
  apply BitVec.eq_of_toNat_eq
  rw [encode, asmNnn_toNat, BitVec.toNat_ofNat, BitVec.toNat_ofNat]
  omega

@[simp] theorem addrTarget_toNat (nnn : Addr12) : (addrTarget nnn).toNat = nnn.toNat := by
  have := nnn.isLt
  rw [addrTarget, BitVec.toNat_setWidth]
  omega

/-- A 12-bit address and a byte add up without wrap (R148). -/
theorem addrTarget_add_byte_toNat (nnn : Addr12) (b : Byte) :
    (addrTarget nnn + b.setWidth 16).toNat = nnn.toNat + b.toNat := by
  have := nnn.isLt
  have := b.isLt
  rw [BitVec.toNat_add, addrTarget_toNat, BitVec.toNat_setWidth]
  omega

/-- The field w[11:8] of an address is its quotient by 256 (R103, R148). -/
theorem jumpOffsetReg_eq (c : Cfg) (nnn : Addr12) :
    jumpOffsetReg c nnn = if c.jumpOffsetVx then Fin.ofNat 16 (nnn.toNat / 256) else 0 := by
  have field : (nnn.extractLsb' 8 4).toFin = Fin.ofNat 16 (nnn.toNat / 256) := by
    ext
    simp [Nat.shiftRight_eq_div_pow]
  rw [jumpOffsetReg, field]

/-- Settles O17: the one write is the log entry, with the word `encode_sys` names. -/
theorem sysIsLoggedNoOp : Obligations.SysIsLoggedNoOp := by
  intro s nnn
  refine ⟨_, exec_sys nnn s, ?_, rfl, keeps_reportUnknown s _ _⟩
  rw [reportUnknown_diagLog, encode_sys]
  rfl

/-- Settles O18: both jumps are one write of PC. -/
theorem jumpsSetPc : Obligations.JumpsSetPc := by
  intro s nnn
  refine ⟨⟨_, exec_jp nnn s, addrTarget_toNat nnn, rfl, keeps_setPc s _⟩,
    ⟨_, exec_jpV0 nnn s, ?_, rfl, keeps_setPc s _⟩⟩
  rw [State.setPc_pc, addrTarget_add_byte_toNat, jumpOffsetReg_eq]

/-! CALL and RET (R143, R141): one equation for each of their two outcomes. -/

theorem exec_call_room (nnn : Addr12) {s : State} (h : s.sp.val < 16) : exec (.call nnn) s =
    .next (((s.setSlot ⟨s.sp.val, h⟩ s.pc).setSp ⟨s.sp.val + 1, by omega⟩).setPc (addrTarget nnn)) := by
  simp only [exec, execCall, push_ok s.pc s h]

theorem exec_call_full (nnn : Addr12) {s : State} (h : s.sp.val = 16) :
    exec (.call nnn) s = .next (takeFault (.stackOverflow (fetchAddr s)) s) := by
  simp only [exec, execCall, push_error s.pc s h]

theorem exec_ret_nonempty {s : State} (h : s.sp.val ≠ 0) : exec .ret s =
    .next ((s.setSp ⟨s.sp.val - 1, by omega⟩).setPc (s.getSlot ⟨s.sp.val - 1, by omega⟩)) := by
  simp only [exec, execRet, pop_ok s h]

theorem exec_ret_empty {s : State} (h : s.sp.val = 0) :
    exec .ret s = .next (takeFault (.stackUnderflow (fetchAddr s)) s) := by
  simp only [exec, execRet, pop_error s h]

/-- Settles O20: the push and the jump of `exec_call_room`. -/
theorem callPushesReturnAddress : Obligations.CallPushesReturnAddress := by
  intro s nnn room
  refine ⟨_, exec_call_room nnn room, ?stored, rfl, addrTarget_toNat nnn, rfl,
    keeps_setSlot_setSp_setPc s ⟨s.sp.val, room⟩ _ _ _⟩
  case stored =>
    intro j hj
    have hslot : (⟨s.sp.val, room⟩ : Fin 16) = j := Fin.ext hj.symm
    simp [hslot]

/-- Settles O21: on a full stack the fault is the only write. -/
theorem callOnFullStackFaults : Obligations.CallOnFullStackFaults := by
  intro s nnn full
  exact ⟨_, exec_call_full nnn full, rfl, rfl, keeps_takeFault s _⟩

/-- Settles O22: the pop and the jump of `exec_ret_nonempty`; no slot is written. -/
theorem retPopsReturnAddress : Obligations.RetPopsReturnAddress := by
  intro s nonempty
  refine ⟨_, exec_ret_nonempty nonempty, ?depth, ?target, rfl, keeps_setSp_setPc s _ _⟩
  case depth =>
    simp only [State.setPc_sp, State.setSp_sp]
    omega
  case target =>
    intro j hj
    have hslot : j = ⟨s.sp.val - 1, by omega⟩ := Fin.ext (by simp only; omega)
    rw [hslot, State.setPc_pc]

/-- Settles O23: on an empty stack the fault is the only write. -/
theorem retOnEmptyStackFaults : Obligations.RetOnEmptyStackFaults := by
  intro s empty
  exact ⟨_, exec_ret_empty empty, rfl, rfl, keeps_takeFault s _⟩

/-- Settles O26: the call writes PC + 2 to the slot at its depth, which is the one the return reads. -/
theorem callThenReturnRestoresPc : Obligations.CallThenReturnRestoresPc := by
  intro s c nnn room hc hcall
  obtain ⟨t, ht, stored, depth, -, -, -⟩ := callPushesReturnAddress (advancePc s) nnn room
  refine ⟨t, (step_of_decoded hc hcall).trans ht, ?_⟩
  intro u r hr hret hsp hslots
  have udepth : (advancePc u).sp.val = s.sp.val + 1 := (congrArg Fin.val hsp).trans depth
  obtain ⟨w, hw, wdepth, target, -, -⟩ := retPopsReturnAddress (advancePc u) (by omega)
  refine ⟨w, (step_of_decoded hr hret).trans hw, ?pc, ?sp⟩
  case pc =>
    let slot : Fin 16 := ⟨s.sp.val, room⟩
    calc w.pc = u.getSlot slot := target slot udepth.symm
      _ = t.getSlot slot := hslots slot
      _ = s.pc + 2#16 := stored slot rfl
  case sp =>
    apply Fin.ext
    omega

/-! The skips (R144 to R147). -/

theorem exec_seImm (x : Reg) (kk : Byte) (s : State) : exec (.seImm x kk) s = .next (skipIf (s.getV x == kk) s) := rfl

theorem exec_sneImm (x : Reg) (kk : Byte) (s : State) :
    exec (.sneImm x kk) s = .next (skipIf (s.getV x != kk) s) := rfl

theorem exec_seReg (x y : Reg) (s : State) : exec (.seReg x y) s = .next (skipIf (s.getV x == s.getV y) s) := rfl

theorem exec_sneReg (x y : Reg) (s : State) : exec (.sneReg x y) s = .next (skipIf (s.getV x != s.getV y) s) := rfl

theorem skipIf_pc_toNat (c : Bool) (s : State) :
    (skipIf c s).pc.toNat = (s.pc.toNat + if c then 2 else 0) % 65536 := by
  have := s.pc.isLt
  cases c
  · simp [skipIf]
    omega
  · simp [skipIf, BitVec.toNat_add]

theorem skipIf_mem (c : Bool) (s : State) : (skipIf c s).mem = s.mem := by
  cases c <;> rfl

theorem keeps_skipIf (c : Bool) (s : State) : Keeps { pc := True } s (skipIf c s) := by
  cases c
  · exact Keeps.refl _ s
  · exact keeps_setPc s _

/-- What a skip does when its condition c says P. -/
theorem skipIf_skips_when {c : Bool} {P : Prop} [Decidable P] (h : c = true ↔ P) (s : State) :
    (skipIf c s).pc.toNat = (s.pc.toNat + if P then 2 else 0) % 65536 ∧ (skipIf c s).mem = s.mem ∧
      Keeps { pc := True } s (skipIf c s) := by
  refine ⟨?_, skipIf_mem c s, keeps_skipIf c s⟩
  simp only [skipIf_pc_toNat, h]

/-- What a skip does when its condition c denies P. -/
theorem skipIf_skips_unless {c : Bool} {P : Prop} [Decidable P] (h : c = true ↔ ¬ P) (s : State) :
    (skipIf c s).pc.toNat = (s.pc.toNat + if P then 0 else 2) % 65536 ∧ (skipIf c s).mem = s.mem ∧
      Keeps { pc := True } s (skipIf c s) := by
  refine ⟨?_, skipIf_mem c s, keeps_skipIf c s⟩
  simp only [skipIf_pc_toNat, h, ite_not]

/-- Settles O24: both are `skipIf` on the comparison. -/
theorem skipsOnLiteral : Obligations.SkipsOnLiteral := by
  intro s x kk
  exact ⟨⟨_, exec_seImm x kk s, skipIf_skips_when beq_iff_eq s⟩,
    ⟨_, exec_sneImm x kk s, skipIf_skips_unless bne_iff_ne s⟩⟩

/-- Settles O25: both are `skipIf` on the comparison. -/
theorem skipsOnRegisters : Obligations.SkipsOnRegisters := by
  intro s x y
  exact ⟨⟨_, exec_seReg x y s, skipIf_skips_when beq_iff_eq s⟩,
    ⟨_, exec_sneReg x y s, skipIf_skips_unless bne_iff_ne s⟩⟩

end Sys2Proof.Machine
end

section
/-! The register, arithmetic, bitwise, shift and random instructions (spec/42_alu.md), the index register
(spec/43_index_memory.md) and the keypad and timers (spec/44_timer_keypad.md): what each writes. -/

namespace Sys2Proof.Machine

/-! Copy and logic (R162 to R165). -/

theorem exec_ldReg (x y : Reg) (s : State) : exec (.ldReg x y) s = .next (s.setV x (s.getV y)) := rfl

theorem exec_or (x y : Reg) (s : State) : exec (.or x y) s = .next (s.setV x (s.getV x ||| s.getV y)) := rfl

theorem exec_and (x y : Reg) (s : State) : exec (.and x y) s = .next (s.setV x (s.getV x &&& s.getV y)) := rfl

theorem exec_xor (x y : Reg) (s : State) : exec (.xor x y) s = .next (s.setV x (s.getV x ^^^ s.getV y)) := rfl

/-- Settles O29: one register write. -/
theorem copyWritesOneRegister : Obligations.CopyWritesOneRegister := by
  intro s x y
  exact ⟨_, exec_ldReg x y s, setV_writes_one_register s x (s.getV y)⟩

/-- Settles O31: each is one register write, read bit by bit. -/
theorem logicIsBitwiseWithoutFlag : Obligations.LogicIsBitwiseWithoutFlag := by
  intro s x y
  refine ⟨⟨_, exec_or x y s, ?_, rfl, keeps_setV s x _⟩, ⟨_, exec_and x y s, ?_, rfl, keeps_setV s x _⟩,
    ⟨_, exec_xor x y s, ?_, rfl, keeps_setV s x _⟩⟩ <;> simp

/-! The instructions that write a result and the flag (R166 to R170): all go through `writeRf`. -/

theorem exec_addReg (x y : Reg) (s : State) : exec (.addReg x y) s =
    .next (writeRf x (sumByte (s.getV x) (s.getV y)) (carryOf (s.getV x) (s.getV y)) s) := rfl

theorem exec_sub (x y : Reg) (s : State) : exec (.sub x y) s =
    .next (writeRf x (diffByte (s.getV x) (s.getV y)) (noBorrow (s.getV x) (s.getV y)) s) := rfl

theorem exec_subn (x y : Reg) (s : State) : exec (.subn x y) s =
    .next (writeRf x (diffByte (s.getV y) (s.getV x)) (noBorrow (s.getV y) (s.getV x)) s) := rfl

theorem exec_shr (x y : Reg) (s : State) : exec (.shr x y) s =
    .next (writeRf x (shrByte (shiftSource s x y)) (shrFlag (shiftSource s x y)) s) := rfl

theorem exec_shl (x y : Reg) (s : State) : exec (.shl x y) s =
    .next (writeRf x (shlByte (shiftSource s x y)) (shlFlag s.cfg (shiftSource s x y)) s) := rfl

theorem writeRf_mem (x : Reg) (r : Byte) (f : Bool) (s : State) : (writeRf x r f s).mem = s.mem := by
  unfold writeRf
  split <;> rfl

/-- `writeRf` writes the result and the flag whose values as numbers are r' and f'. -/
theorem writeRf_writes {x : Reg} {r : Byte} {f : Bool} {r' f' : Nat} (hr : r.toNat = r') (hf : f.toNat = f')
    (s : State) : (writeRf x r f s).mem = s.mem ∧ WritesResultAndFlag x r' f' s (writeRf x r f s) := by
  subst hr hf
  exact ⟨writeRf_mem x r f s, writeRf_result_flag x r f s⟩

theorem toNat_decide (P : Prop) [Decidable P] : (decide P).toNat = if P then 1 else 0 := by
  by_cases h : P <;> simp [h]

theorem carryOf_toNat (a b : Byte) : (carryOf a b).toNat = if 255 < a.toNat + b.toNat then 1 else 0 :=
  toNat_decide _

theorem diffByte_toNat (a b : Byte) : (diffByte a b).toNat = (a.toNat + 256 - b.toNat) % 256 :=
  BitVec.toNat_ofNat _ 8

theorem noBorrow_toNat (a b : Byte) : (noBorrow a b).toNat = if b.toNat ≤ a.toNat then 1 else 0 :=
  toNat_decide _

theorem shrByte_toNat (a : Byte) : (shrByte a).toNat = a.toNat / 2 := by
  simp [shrByte, Nat.shiftRight_eq_div_pow]

theorem shlByte_toNat (a : Byte) : (shlByte a).toNat = a.toNat * 2 % 256 := by
  simp [shlByte, Nat.shiftLeft_eq]

/-- A bit of a byte as a number (R168, R170). -/
theorem getLsbD_toNat (a : Byte) (i : Nat) : (a.getLsbD i).toNat = a.toNat / 2 ^ i % 2 :=
  Nat.toNat_testBit a.toNat i

theorem shrFlag_toNat (a : Byte) : (shrFlag a).toNat = a.toNat % 2 := by
  rw [shrFlag, getLsbD_toNat]
  omega

theorem shlFlag_toNat (c : Cfg) (a : Byte) :
    (shlFlag c a).toNat = if c.shlFlagLsb then a.toNat % 2 else a.toNat / 128 := by
  unfold shlFlag
  have := a.isLt
  split <;> rw [getLsbD_toNat] <;> omega

/-- Settles O32: the sum, and the carry as the flag. -/
theorem addRegistersCarriesIntoVF : Obligations.AddRegistersCarriesIntoVF := by
  intro s x y
  exact ⟨_, exec_addReg x y s, writeRf_writes (sumByte_toNat _ _) (carryOf_toNat _ _) s⟩

/-- Settles O33: the difference, and the absence of a borrow as the flag; SUBN with the operands exchanged. -/
theorem subtractsSetNoBorrow : Obligations.SubtractsSetNoBorrow := by
  intro s x y
  exact ⟨⟨_, exec_sub x y s, writeRf_writes (diffByte_toNat _ _) (noBorrow_toNat _ _) s⟩,
    ⟨_, exec_subn x y s, writeRf_writes (diffByte_toNat _ _) (noBorrow_toNat _ _) s⟩⟩

/-- Settles O34: the source is `shiftSource`, the flag the bit that leaves it. -/
theorem shiftsMoveOneBit : Obligations.ShiftsMoveOneBit := by
  intro s x y src hsrc
  have source : (shiftSource s x y).toNat = src := hsrc.symm
  subst source
  exact ⟨⟨_, exec_shr x y s, writeRf_writes (shrByte_toNat _) (shrFlag_toNat _) s⟩,
    ⟨_, exec_shl x y s, writeRf_writes (shlByte_toNat _) (shlFlag_toNat _ _) s⟩⟩

/-! RND (R171). -/

theorem exec_rnd (x : Reg) (kk : Byte) (s : State) :
    exec (.rnd x kk) s = .next (s.setV x (Config.randomByte s.draws &&& kk)).countDraw := rfl

/-- Settles O35: the register write of the masked draw, and the count. -/
theorem rndMasksTheDraw : Obligations.RndMasksTheDraw := by
  intro s x kk
  refine ⟨_, exec_rnd x kk s, ?masked, rfl, rfl, keeps_setV_countDraw s x _⟩
  case masked => simp

/-! The index register (R190 to R192). -/

theorem exec_ldI (nnn : Addr12) (s : State) : exec (.ldI nnn) s = .next (s.setIndex (addrTarget nnn)) := rfl

theorem exec_addI (x : Reg) (s : State) :
    exec (.addI x) s = .next (s.setIndex (s.index + (s.getV x).setWidth 16)) := rfl

theorem exec_ldF (x : Reg) (s : State) : exec (.ldF x) s = .next (s.setIndex (glyphAddr s.cfg (s.getV x))) := rfl

theorem add_byte_toNat (w : Word) (b : Byte) : (w + b.setWidth 16).toNat = (w.toNat + b.toNat) % 65536 := by
  have := b.isLt
  rw [BitVec.toNat_add, BitVec.toNat_setWidth]
  omega

theorem lowNibble_toNat (v : Byte) : (v &&& 0xF#8).toNat = v.toNat % 16 := by
  rw [BitVec.toNat_and]
  exact Nat.and_two_pow_sub_one_eq_mod v.toNat 4

/-- FONT_BASE is 12 bits wide and the offset at most 75: no wrap (R192). -/
theorem glyphAddr_toNat (c : Cfg) (v : Byte) : (glyphAddr c v).toNat = c.fontBase.toNat + 5 * (v.toNat % 16) := by
  have := c.fontBase.isLt
  have := lowNibble_toNat v
  simp only [glyphAddr, BitVec.toNat_add, BitVec.toNat_mul, BitVec.toNat_setWidth, BitVec.toNat_ofNat]
  omega

/-- Settles O36: each is one write of I. -/
theorem indexInstructionsWriteI : Obligations.IndexInstructionsWriteI := by
  intro s x nnn
  exact ⟨⟨_, exec_ldI nnn s, addrTarget_toNat nnn, rfl, keeps_setIndex s _⟩,
    ⟨_, exec_addI x s, add_byte_toNat s.index (s.getV x), rfl, keeps_setIndex s _⟩,
    ⟨_, exec_ldF x s, glyphAddr_toNat s.cfg (s.getV x), rfl, keeps_setIndex s _⟩⟩

/-! The keypad (R210 to R212, R216). -/

theorem exec_skp_key {x : Reg} {s : State} {k : Fin 16} (h : (s.getV x).toNat = k.val) :
    exec (.skp x) s = .next (skipIf (s.getKey k) s) := by
  have index : keyIndex (s.getV x) = .ok k := by simp [keyIndex, h]
  simp only [exec, execSkp, index]

theorem exec_sknp_key {x : Reg} {s : State} {k : Fin 16} (h : (s.getV x).toNat = k.val) :
    exec (.sknp x) s = .next (skipIf (!s.getKey k) s) := by
  have index : keyIndex (s.getV x) = .ok k := by simp [keyIndex, h]
  simp only [exec, execSknp, index]

theorem exec_skp_above {x : Reg} {s : State} (h : 15 < (s.getV x).toNat) :
    exec (.skp x) s = .next (takeFault (.keyIndexOutOfRange (s.getV x)) s) := by
  simp only [exec, execSkp, keyIndex_error (s.getV x) h]

theorem exec_sknp_above {x : Reg} {s : State} (h : 15 < (s.getV x).toNat) :
    exec (.sknp x) s = .next (takeFault (.keyIndexOutOfRange (s.getV x)) s) := by
  simp only [exec, execSknp, keyIndex_error (s.getV x) h]

/-- Settles O45: both are `skipIf` on the key's state. -/
theorem keySkipsTestTheKey : Obligations.KeySkipsTestTheKey := by
  intro s x k h
  have up : (!s.getKey k) = true ↔ ¬ s.getKey k = true := by simp
  exact ⟨⟨_, exec_skp_key h, skipIf_skips_when Iff.rfl s⟩, ⟨_, exec_sknp_key h, skipIf_skips_unless up s⟩⟩

/-- Settles O46: the fault is the only write. -/
theorem keyIndexAboveFifteenFaults : Obligations.KeyIndexAboveFifteenFaults := by
  intro s x h
  exact ⟨⟨_, exec_skp_above h, rfl, rfl, keeps_takeFault s _⟩,
    ⟨_, exec_sknp_above h, rfl, rfl, keeps_takeFault s _⟩⟩

theorem exec_ldK_down {s : State} {k : Fin 16} (x : Reg) (h : lowestKeyDown s = some k) :
    exec (.ldK x) s = .next (s.setV x (BitVec.ofNat 8 k.val)) := by
  simp only [exec, execLdK, h]

theorem exec_ldK_none {s : State} (x : Reg) (h : lowestKeyDown s = none) :
    exec (.ldK x) s = .next (s.setPc (fetchAddr s)) := by
  simp only [exec, execLdK, h]

/-- Settles O47: `lowestKeyDown_some`, and one register write. -/
theorem keyWaitTakesTheLowestKey : Obligations.KeyWaitTakesTheLowestKey := by
  intro s x k down lowest
  refine ⟨_, exec_ldK_down x (lowestKeyDown_some s k down lowest), ?_, rfl, keeps_setV s x _⟩
  have := k.isLt
  simp only [State.getV_setV, if_true, BitVec.toNat_ofNat]
  omega

/-- Settles O48: PC goes back to the fetch address, the only piece the cycle had written. -/
theorem keyWaitRepeatsWithoutAKey : Obligations.KeyWaitRepeatsWithoutAKey := by
  intro s w x hw hi noKey
  calc step s = exec (.ldK x) (advancePc s) := step_of_decoded hw hi
    _ = .next ((advancePc s).setPc (fetchAddr (advancePc s))) :=
      exec_ldK_none x (lowestKeyDown_none (advancePc s) noKey)
    _ = .next s := by rw [fetchAddr_advancePc]; rfl

/-! The timer transfers (R213 to R215). -/

theorem exec_ldVxDt (x : Reg) (s : State) : exec (.ldVxDt x) s = .next (s.setV x s.dt) := rfl

theorem exec_ldDt (x : Reg) (s : State) : exec (.ldDt x) s = .next (s.setDt (s.getV x)) := rfl

theorem exec_ldSt (x : Reg) (s : State) : exec (.ldSt x) s = .next (s.setSt (s.getV x)) := rfl

/-- Settles O49: each is one write of one piece. -/
theorem timerTransfersCopyOneByte : Obligations.TimerTransfersCopyOneByte := by
  intro s x
  exact ⟨⟨_, exec_ldVxDt x s, setV_writes_one_register s x s.dt⟩,
    ⟨_, exec_ldDt x s, rfl, rfl, keeps_setDt s _⟩, ⟨_, exec_ldSt x s, rfl, rfl, keeps_setSt s _⟩⟩

end Sys2Proof.Machine
end

section
/-! The memory instructions (spec/43_index_memory.md): LD B, LD [I], Vx and LD Vx, [I], each with the block that fits
and the one that runs past 0xFFF; and the coherence of stores with later fetches (spec/20_memory.md rule R85). -/

namespace Sys2Proof.Machine

/-! The advance of I after a dump or a load (R195, R196). -/

/-- I <- w when b. -/
def setIndexIf (b : Bool) (w : Word) (s : State) : State := if b then s.setIndex w else s

section

variable (b : Bool) (w : Word) (s : State)

@[simp] theorem setIndexIf_mem : (setIndexIf b w s).mem = s.mem := by cases b <;> rfl

@[simp] theorem setIndexIf_cfg : (setIndexIf b w s).cfg = s.cfg := by cases b <;> rfl

@[simp] theorem setIndexIf_byteAt (a : Nat) : (setIndexIf b w s).byteAt a = s.byteAt a := by cases b <;> rfl

@[simp] theorem setIndexIf_getV (r : Reg) : (setIndexIf b w s).getV r = s.getV r := by cases b <;> rfl

theorem setIndexIf_index : (setIndexIf b w s).index = if b then w else s.index := by cases b <;> rfl

end

/-- A frame, then I advanced or not. -/
theorem Keeps.setIndexIf {c : Changes} {s t : State} (h : Keeps c s t) (b : Bool) (w : Word) :
    Keeps { c with index := True } s (setIndexIf b w t) := by
  cases b
  · exact { h with index := fun n => absurd trivial n }
  · exact h.setIndex w

/-- The registers of a dump or load are V0 to Vx. -/
theorem lt_regCount_iff (r x : Reg) : r.val < regCount x ↔ r ≤ x := Nat.lt_succ_iff

theorem regCount_le (x : Reg) : regCount x ≤ 16 := x.isLt

theorem advancedIndex_toNat (w : Word) (x : Reg) : (advancedIndex w x).toNat = (w.toNat + x.val + 1) % 65536 := by
  have := x.isLt
  rw [advancedIndex, regCount, BitVec.toNat_add, BitVec.toNat_ofNat]
  omega

/-- I after a completed dump or load, whose block left I alone. -/
theorem setIndexIf_advanced_toNat {s t : State} (b : Bool) (x : Reg) (h : t.index = s.index) :
    (setIndexIf b (advancedIndex s.index x) t).index.toNat =
      if b then (s.index.toNat + x.val + 1) % 65536 else s.index.toNat := by
  rw [setIndexIf_index, h, ← advancedIndex_toNat]
  cases b <;> rfl

/-! LD B (R193). -/

theorem bcdDigits_length (v : Byte) : (bcdDigits v).length = 3 := rfl

theorem exec_ldB_of_ok {x : Reg} {s t : State} (h : writeBytes s.index.toNat (bcdDigits (s.getV x)) s = .ok t) :
    exec (.ldB x) s = .next t := by
  simp only [exec, execLdB, h]

theorem exec_ldB_of_error {x : Reg} {s : State} {f : CpuFault}
    (h : writeBytes s.index.toNat (bcdDigits (s.getV x)) s = .error f) :
    exec (.ldB x) s = .next (takeFault f (scrambleBcd s)) := by
  simp only [exec, execLdB, h]

theorem exec_ldB_fits {s : State} (x : Reg) (h : s.index.toNat ≤ 0xFFD) :
    ∃ t, exec (.ldB x) s = .next t ∧ Wrote s.index.toNat (bcdDigits (s.getV x)) s t := by
  obtain ⟨t, ht, written⟩ := writeBytes_ok s.index.toNat (bcdDigits (s.getV x)) s
    (Or.inr (by rw [bcdDigits_length]; omega))
  exact ⟨t, exec_ldB_of_ok ht, written⟩

theorem exec_ldB_past_end {s : State} (x : Reg) (h : 0xFFD < s.index.toNat) :
    exec (.ldB x) s = .next (takeFault (.addressOutOfRange (max s.index.toNat 0x1000)) (scrambleBcd s)) :=
  exec_ldB_of_error (writeBytes_error _ _ s (List.cons_ne_nil _ _) (by rw [bcdDigits_length]; omega))

/-- The fault of LD B leaves free bytes in range of its three, one more draw and one more record entry (R237). -/
theorem keeps_scrambleBcd_takeFault (f : CpuFault) (s : State) :
    Keeps { mem := fun a => s.index.toNat ≤ a ∧ a ≤ s.index.toNat + 2 ∧ a ≤ 0xFFF, faultRecord := True,
            draws := True } s (takeFault f (scrambleBcd s)) :=
  have frame := (keeps_scrambleBytes s.draws s.index.toNat 3 s).countDraw.takeFault f
  { frame with mem := fun a n => frame.mem a (by omega) }

theorem scrambleBcd_faultRecord (s : State) : (scrambleBcd s).faultRecord = s.faultRecord :=
  (keeps_scrambleBytes s.draws s.index.toNat 3 s).faultRecord id

/-- Settles O37: the block of digits fits, and `Wrote` reads its three bytes. -/
theorem bcdStoresThreeDigits : Obligations.BcdStoresThreeDigits := by
  intro s x h
  have := (s.getV x).isLt
  obtain ⟨t, ht, written⟩ := exec_ldB_fits x h
  have digit : ∀ k (hk : k < 3), t.byteAt (s.index.toNat + k) = (bcdDigits (s.getV x))[k] := written.inside
  refine ⟨t, ht, ?hundreds, ?tens, ?ones, ?frame⟩
  case hundreds =>
    rw [← Nat.add_zero s.index.toNat, digit 0 (by omega)]
    simp [bcdDigits]
    omega
  case tens =>
    rw [digit 1 (by omega)]
    simp [bcdDigits]
    omega
  case ones =>
    rw [digit 2 (by omega)]
    simp [bcdDigits]
    omega
  case frame =>
    have frame := written.keeps
    exact { frame with mem := fun a n => frame.mem a (by rw [bcdDigits_length]; omega) }

/-- Settles O38: the block does not fit, and R237's write set bounds what the fault leaves. -/
theorem bcdFaultsPastTheEndOfMemory : Obligations.BcdFaultsPastTheEndOfMemory := by
  intro s x h
  refine ⟨_, exec_ldB_past_end x h, ?_, keeps_scrambleBcd_takeFault _ s⟩
  rw [takeFault_faultRecord, scrambleBcd_faultRecord]

/-! LD [I], Vx (R195). -/

theorem exec_ldMemI_of_ok {x : Reg} {s t : State} (h : writeBytes s.index.toNat (regBlock s x) s = .ok t) :
    exec (.ldMemI x) s = .next (setIndexIf s.cfg.incIStore (advancedIndex s.index x) t) := by
  simp only [exec, execLdMemI, h, setIndexIf]

theorem exec_ldMemI_of_error {x : Reg} {s : State} {f : CpuFault}
    (h : writeBytes s.index.toNat (regBlock s x) s = .error f) :
    exec (.ldMemI x) s = .next (takeFault f (scrambleDump (regCount x) s)) := by
  simp only [exec, execLdMemI, h]

theorem exec_ldMemI_fits {s : State} {x : Reg} (h : s.index.toNat + x.val ≤ 0xFFF) :
    ∃ t, exec (.ldMemI x) s = .next (setIndexIf s.cfg.incIStore (advancedIndex s.index x) t) ∧
      Wrote s.index.toNat (regBlock s x) s t := by
  obtain ⟨t, ht, written⟩ := writeBytes_ok s.index.toNat (regBlock s x) s (Or.inr (by rw [regBlock_length]; omega))
  exact ⟨t, exec_ldMemI_of_ok ht, written⟩

theorem exec_ldMemI_past_end {s : State} {x : Reg} (h : 0xFFF < s.index.toNat + x.val) : exec (.ldMemI x) s =
    .next (takeFault (.addressOutOfRange (max s.index.toNat 0x1000)) (scrambleDump (regCount x) s)) := by
  have nonempty : regBlock s x ≠ [] := List.ne_nil_of_length_eq_add_one (regBlock_length s x)
  exact exec_ldMemI_of_error (writeBytes_error _ _ s nonempty (by rw [regBlock_length]; omega))

/-- The fault of a dump leaves free bytes from I on, a free I, one more draw and one more record entry (R237). -/
theorem keeps_scrambleDump_takeFault (f : CpuFault) (count : Nat) (s : State) :
    Keeps { mem := fun a => s.index.toNat ≤ a ∧ a ≤ 0xFFF, index := True, faultRecord := True, draws := True }
      s (takeFault f (scrambleDump count s)) :=
  have frame := ((keeps_scrambleBytes s.draws s.index.toNat count s).setIndex _).countDraw.takeFault f
  { frame with mem := fun a n => frame.mem a (by omega) }

theorem scrambleDump_faultRecord (count : Nat) (s : State) : (scrambleDump count s).faultRecord = s.faultRecord :=
  (keeps_scrambleBytes s.draws s.index.toNat count s).faultRecord id

/-- Settles O39: the register block fits, and `Wrote` reads it back. -/
theorem dumpStoresRegisters : Obligations.DumpStoresRegisters := by
  intro s x h
  obtain ⟨t, ht, written⟩ := exec_ldMemI_fits h
  refine ⟨_, ht, ?stored, setIndexIf_advanced_toNat s.cfg.incIStore x (written.keeps.index id), ?frame⟩
  case stored =>
    intro r hr
    have hlt : r.val < (regBlock s x).length := by
      rw [regBlock_length]
      exact (lt_regCount_iff r x).mpr hr
    rw [setIndexIf_byteAt, written.inside r.val hlt, regBlock_getElem s x r.val hlt r.isLt]
  case frame =>
    have frame := written.keeps.setIndexIf s.cfg.incIStore (advancedIndex s.index x)
    exact { frame with mem := fun a n => frame.mem a (by rw [regBlock_length]; omega) }

/-- Settles O40: the block does not fit, and R237's write set bounds what the fault leaves. -/
theorem dumpFaultsPastTheEndOfMemory : Obligations.DumpFaultsPastTheEndOfMemory := by
  intro s x h
  refine ⟨_, exec_ldMemI_past_end h, ?_, keeps_scrambleDump_takeFault _ _ s⟩
  rw [takeFault_faultRecord, scrambleDump_faultRecord]

/-! LD Vx, [I] (R196). -/

theorem exec_ldRegI_of_ok {x : Reg} {s t : State} (h : loadRegs s.index.toNat (regCount x) s = .ok t) :
    exec (.ldRegI x) s = .next (setIndexIf s.cfg.incILoad (advancedIndex s.index x) t) := by
  simp only [exec, execLdRegI, h, setIndexIf]

theorem exec_ldRegI_of_error {x : Reg} {s : State} {f : CpuFault}
    (h : loadRegs s.index.toNat (regCount x) s = .error f) :
    exec (.ldRegI x) s = .next (takeFault f (scrambleLoad (regCount x) s)) := by
  simp only [exec, execLdRegI, h]

theorem exec_ldRegI_fits {s : State} {x : Reg} (h : s.index.toNat + x.val ≤ 0xFFF) :
    ∃ t, exec (.ldRegI x) s = .next (setIndexIf s.cfg.incILoad (advancedIndex s.index x) t) ∧
      Loaded s.index.toNat (regCount x) s t := by
  obtain ⟨t, ht, loaded⟩ := loadRegs_ok s.index.toNat (regCount x) s (regCount_le x)
    (Or.inr (by simp only [regCount]; omega))
  exact ⟨t, exec_ldRegI_of_ok ht, loaded⟩

theorem exec_ldRegI_past_end {s : State} {x : Reg} (h : 0xFFF < s.index.toNat + x.val) : exec (.ldRegI x) s =
    .next (takeFault (.addressOutOfRange (max s.index.toNat 0x1000)) (scrambleLoad (regCount x) s)) :=
  exec_ldRegI_of_error
    (loadRegs_error _ _ s (regCount_le x) (Nat.succ_ne_zero x.val) (by simp only [regCount]; omega))

/-- The fault of a load leaves free bytes in the registers it names, a free I, one more draw and one more record entry
(R237). -/
theorem keeps_scrambleLoad_takeFault (f : CpuFault) (x : Reg) (s : State) :
    Keeps { v := fun r => r ≤ x, index := True, faultRecord := True, draws := True }
      s (takeFault f (scrambleLoad (regCount x) s)) :=
  have frame := ((keeps_scrambleRegs s.draws (regCount x) s (regCount_le x)).setIndex _).countDraw.takeFault f
  { frame with v := fun r n => frame.v r (mt (lt_regCount_iff r x).mp n) }

theorem scrambleLoad_mem (count : Nat) (s : State) : (scrambleLoad count s).mem = s.mem :=
  mem_scrambleRegs s.draws count s

theorem scrambleLoad_faultRecord (x : Reg) (s : State) : (scrambleLoad (regCount x) s).faultRecord = s.faultRecord :=
  (keeps_scrambleRegs s.draws (regCount x) s (regCount_le x)).faultRecord id

/-- Settles O41: the block exists, and `Loaded` says what each register holds. -/
theorem loadReadsRegisters : Obligations.LoadReadsRegisters := by
  intro s x h
  obtain ⟨t, ht, loaded⟩ := exec_ldRegI_fits h
  refine ⟨_, ht, ?loaded, setIndexIf_advanced_toNat s.cfg.incILoad x (loaded.keeps.index id), ?mem, ?frame⟩
  case loaded =>
    intro r hr
    rw [setIndexIf_getV, loaded.inside r ((lt_regCount_iff r x).mpr hr)]
  case mem => rw [setIndexIf_mem, loaded.mem]
  case frame =>
    have frame := loaded.keeps.setIndexIf s.cfg.incILoad (advancedIndex s.index x)
    exact { frame with v := fun r n => frame.v r (mt (lt_regCount_iff r x).mp n) }

/-- Settles O42: the block does not exist, and R237's write set bounds what the fault leaves. -/
theorem loadFaultsPastTheEndOfMemory : Obligations.LoadFaultsPastTheEndOfMemory := by
  intro s x h
  refine ⟨_, exec_ldRegI_past_end h, ?record, scrambleLoad_mem _ s, keeps_scrambleLoad_takeFault _ x s⟩
  case record => rw [takeFault_faultRecord, scrambleLoad_faultRecord]

/-- Settles O43: the load reads, register by register, the bytes the dump stored. -/
theorem loadUndoesDump : Obligations.LoadUndoesDump := by
  intro s t u x fits dump hindex hbytes
  obtain ⟨t', dump', stored, -, -⟩ := dumpStoresRegisters s x fits
  obtain rfl := next_unique dump dump'
  obtain ⟨w, load, loaded, -, -, -⟩ := loadReadsRegisters u x (by rwa [hindex])
  refine ⟨w, load, fun r hr => ?_⟩
  rw [loaded r hr, hindex, hbytes, stored r hr]

/-! Coherence (R85). -/

/-- Once a block is written, every later fetch sees it. -/
theorem fetchesStored_of_wrote {base : Nat} {bs : List Byte} {s t t' : State} (h : Wrote base bs s t)
    (same : ∀ a, t'.byteAt a = t.byteAt a) : FetchesStored s t' base bs := by
  intro u hu hpc
  simp only [fetchWord_ok u hpc, hu, same, h.byteAt_eq]

/-- The block of a dump, register by register. -/
theorem regBlock_eq_map (s : State) (x : Reg) :
    regBlock s x = (List.range (x.val + 1)).map fun k => s.getV (Fin.ofNat 16 k) := by
  apply List.ext_getElem
  · simp [regBlock_length]
  · intro k hk _
    have hlt : k < 16 := by
      have := x.isLt
      rw [regBlock_length] at hk
      omega
    rw [regBlock_getElem s x k hk hlt]
    simp [Fin.ofNat, Nat.mod_eq_of_lt hlt]

/-- A load the host was answered LoadOk for has written its block. -/
theorem wrote_of_loadOk {s t : State} {bytes : List Byte} (h : hostStep (.loadProgram bytes) s = .next (t, .loadOk)) :
    Wrote s.cfg.loadAddr.toNat bytes s t := by
  by_cases fits : bytes.length + s.cfg.loadAddr.toNat ≤ 4096
  · rw [hostStep_loadProgram_fits fits] at h
    cases h
    exact storeBytes_wrote _ _ _
  · rw [hostStep_loadProgram_too_large (by omega)] at h
    cases h

/-- Settles O44: each of the three writers writes its block. -/
theorem fetchSeesStoredBytes : Obligations.FetchSeesStoredBytes := by
  intro s t
  refine ⟨?bcd, ?dump, ?load⟩
  case bcd =>
    intro x fits run
    obtain ⟨t', run', written⟩ := exec_ldB_fits x fits
    obtain rfl := next_unique run run'
    exact fetchesStored_of_wrote written fun _ => rfl
  case dump =>
    intro x fits run
    obtain ⟨t', run', written⟩ := exec_ldMemI_fits fits
    obtain rfl := next_unique run run'
    rw [← regBlock_eq_map]
    exact fetchesStored_of_wrote written (setIndexIf_byteAt _ _ t')
  case load =>
    intro bytes run
    exact fetchesStored_of_wrote (wrote_of_loadOk run) fun _ => rfl

end Sys2Proof.Machine
end

section
/-! The display instructions (spec/40_display.md): CLS, and DRW as the exclusive or of the sprite with the cells it
covers. A drawing is described by the set of cells it toggles; drawings of disjoint sets compose, so the loop of rule
R131 toggles the union over its rows and bits. -/

namespace Sys2Proof.Machine

/-! CLS (R130). -/

theorem exec_cls (s : State) : exec .cls s = .next ((s.setFb blankFb).setDirty true) := rfl

/-- Writing the whole framebuffer and DIRTY changes nothing else. -/
theorem keeps_setFb_setDirty (g : Framebuffer) (b : Bool) (s : State) :
    Keeps { cell := fun _ _ => True, dirty := True } s ((s.setFb g).setDirty b) :=
  { Keeps.refl _ s with cell := fun _ _ h => absurd trivial h, dirty := fun h => absurd trivial h }

/-- Settles O13: the framebuffer becomes `blankFb`, whose cells are all 0. -/
theorem clsClearsEveryCell : Obligations.ClsClearsEveryCell := by
  intro s
  exact ⟨_, exec_cls s, cellOf_blankFb, rfl, rfl, keeps_setFb_setDirty blankFb true s⟩

/-! What a drawing does, for the set of cells it covers. -/

/-- From s to t each cell of `hits` is toggled and the others are kept; VF is 1 when a cell of `hits` was set and
keeps its value when none was; no other register changes. -/
structure Toggled (hits : Fin 64 → Fin 32 → Prop) (s t : State) : Prop where
  hit : ∀ x y, hits x y → t.getCell x y = !s.getCell x y
  miss : ∀ x y, ¬ hits x y → t.getCell x y = s.getCell x y
  collision : ∀ x y, hits x y → s.getCell x y = true → t.getV 0xF = 1#8
  noCollision : (∀ x y, hits x y → s.getCell x y = false) → t.getV 0xF = s.getV 0xF
  registers : ∀ r, r ≠ 0xF → t.getV r = s.getV r

theorem Toggled.none {p : Fin 64 → Fin 32 → Prop} (h : ∀ x y, ¬ p x y) (s : State) : Toggled p s s where
  hit x y hp := absurd hp (h x y)
  miss _ _ _ := rfl
  collision x y hp := absurd hp (h x y)
  noCollision _ := rfl
  registers _ _ := rfl

theorem Toggled.congr {p q : Fin 64 → Fin 32 → Prop} {s t : State} (h : Toggled p s t)
    (hpq : ∀ x y, p x y ↔ q x y) : Toggled q s t := by
  have same : p = q := funext fun x => funext fun y => propext (hpq x y)
  exact same ▸ h

/-- Two drawings of disjoint sets draw the union: a cell of the second set is met as the first state held it. -/
theorem Toggled.union {p q : Fin 64 → Fin 32 → Prop} {s t u : State} (first : Toggled p s t)
    (second : Toggled q t u) (disjoint : ∀ x y, p x y → ¬ q x y) : Toggled (fun x y => p x y ∨ q x y) s u := by
  have untouched : ∀ x y, q x y → t.getCell x y = s.getCell x y := fun x y hq =>
    first.miss x y fun hp => disjoint x y hp hq
  constructor
  case hit =>
    rintro x y (hp | hq)
    · rw [second.miss x y (disjoint x y hp), first.hit x y hp]
    · rw [second.hit x y hq, untouched x y hq]
  case miss =>
    intro x y h
    rw [second.miss x y fun hq => h (Or.inr hq), first.miss x y fun hp => h (Or.inl hp)]
  case collision =>
    rintro x y (hp | hq) hset
    · by_cases again : ∃ x y, q x y ∧ t.getCell x y = true
      · obtain ⟨x', y', hq, hset'⟩ := again
        exact second.collision x' y' hq hset'
      · rw [second.noCollision fun x' y' hq => by simpa using fun e => again ⟨x', y', hq, e⟩]
        exact first.collision x y hp hset
    · exact second.collision x y hq (by rw [untouched x y hq, hset])
  case noCollision =>
    intro h
    rw [second.noCollision fun x y hq => (untouched x y hq).trans (h x y (Or.inr hq)),
      first.noCollision fun x y hp => h x y (Or.inl hp)]
  case registers =>
    intro r hr
    rw [second.registers r hr, first.registers r hr]

/-! One bit, one row, all rows (R131). -/

/-- Bit number `bit` of the sprite row b, from the left, is set and falls on cell (x, y). -/
def BitHits (x0 y0 : Byte) (row : Nat) (b : Byte) (bit : Nat) (x : Fin 64) (y : Fin 32) : Prop :=
  b.getLsbD (7 - bit) = true ∧ x = pixelCol x0 bit ∧ y = pixelRow y0 row

/-- One of the first k bits of the sprite row b falls on cell (x, y). -/
def RowHits (x0 y0 : Byte) (row : Nat) (b : Byte) (k : Nat) (x : Fin 64) (y : Fin 32) : Prop :=
  ∃ bit < k, BitHits x0 y0 row b bit x y

/-- One of the first k rows of the sprite at base falls on cell (x, y). -/
def RowsHit (s : State) (x0 y0 : Byte) (base k : Nat) (x : Fin 64) (y : Fin 32) : Prop :=
  ∃ row < k, RowHits x0 y0 row (s.byteAt (base + row)) 8 x y

/-- A sprite row is narrower than the screen, so its bits fall on different columns. -/
theorem pixelCol_ne {x0 : Byte} {i j : Nat} (hij : i < j) (hj : j < 64) : pixelCol x0 i ≠ pixelCol x0 j := by
  intro e
  have := congrArg Fin.val e
  simp only [pixelCol, Fin.val_ofNat] at this
  omega

/-- A sprite is lower than the screen, so its rows fall on different rows. -/
theorem pixelRow_ne {y0 : Byte} {i j : Nat} (hij : i < j) (hj : j < 32) : pixelRow y0 i ≠ pixelRow y0 j := by
  intro e
  have := congrArg Fin.val e
  simp only [pixelRow, Fin.val_ofNat] at this
  omega

theorem drawBit_toggles (x0 y0 : Byte) (row : Nat) (b : Byte) (bit : Nat) (s : State) :
    Toggled (BitHits x0 y0 row b bit) s (drawBit x0 y0 row b bit s) := by
  by_cases hb : b.getLsbD (7 - bit) = true
  case neg =>
    have same : drawBit x0 y0 row b bit s = s := by simp only [drawBit, if_neg hb]
    rw [same]
    exact Toggled.none (fun _ _ h => hb h.1) s
  case pos =>
    simp only [drawBit, if_pos hb]
    constructor
    case hit =>
      rintro x y ⟨-, rfl, rfl⟩
      simp
    case miss =>
      intro x y h
      have other : ¬ (pixelCol x0 bit = x ∧ pixelRow y0 row = y) := fun ⟨hx, hy⟩ => h ⟨hb, hx.symm, hy.symm⟩
      simp only [State.getCell_setCell, if_neg other]
      split <;> rfl
    case collision =>
      rintro x y ⟨-, rfl, rfl⟩ hset
      simp [hset]
    case noCollision =>
      intro h
      simp [h _ _ ⟨hb, rfl, rfl⟩]
    case registers =>
      intro r hr
      simp only [State.setCell_getV]
      split
      · simp [Ne.symm hr]
      · rfl

theorem drawBits_toggles (x0 y0 : Byte) (row : Nat) (b : Byte) (k : Nat) (hk : k ≤ 64) (s : State) :
    Toggled (RowHits x0 y0 row b k) s (drawBits x0 y0 row b k s) := by
  induction k with
  | zero => exact Toggled.none (fun _ _ ⟨_, h, _⟩ => absurd h (Nat.not_lt_zero _)) s
  | succ k ih =>
    have disjoint : ∀ x y, RowHits x0 y0 row b k x y → ¬ BitHits x0 y0 row b k x y := by
      rintro x y ⟨bit, hbit, -, hx, -⟩ ⟨-, hx', -⟩
      exact pixelCol_ne hbit hk (hx.symm.trans hx')
    exact ((ih (by omega)).union (drawBit_toggles x0 y0 row b k _) disjoint).congr fun _ _ => Nat.exists_lt_succ_right.symm

theorem eq_byteAt_of_memRead {s : State} {a : Nat} {b : Byte} (h : memRead s a = .ok b) : b = s.byteAt a := by
  unfold memRead at h
  split at h <;> cases h
  rfl

/-- The last row drawn, its byte read from the memory the drawing started with. -/
theorem drawRows_succ_inv {x0 y0 : Byte} {base k : Nat} {s t : State} (h : drawRows x0 y0 base (k + 1) s = .ok t) :
    ∃ t', drawRows x0 y0 base k s = .ok t' ∧ t = drawBits x0 y0 k (s.byteAt (base + k)) 8 t' := by
  simp only [drawRows] at h
  split at h
  · cases h
  next t' ht' =>
    have sameMemory : t'.byteAt (base + k) = s.byteAt (base + k) := by
      rw [drawRows_rest _ _ _ _ _ _ ht']
      rfl
    split at h
    · cases h
    next b hb =>
      cases h
      exact ⟨t', ht', by rw [eq_byteAt_of_memRead hb, sameMemory]⟩

theorem drawRows_toggles (x0 y0 : Byte) (base k : Nat) (hk : k ≤ 32) {s t : State}
    (h : drawRows x0 y0 base k s = .ok t) : Toggled (RowsHit s x0 y0 base k) s t := by
  induction k generalizing t with
  | zero =>
    cases h
    exact Toggled.none (fun _ _ ⟨_, h, _⟩ => absurd h (Nat.not_lt_zero _)) s
  | succ k ih =>
    obtain ⟨t', ht', rfl⟩ := drawRows_succ_inv h
    have disjoint : ∀ x y, RowsHit s x0 y0 base k x y → ¬ RowHits x0 y0 k (s.byteAt (base + k)) 8 x y := by
      rintro x y ⟨row, hrow, _, -, -, -, hy⟩ ⟨_, -, -, -, hy'⟩
      exact pixelRow_ne hrow hk (hy.symm.trans hy')
    exact ((ih (by omega) ht').union (drawBits_toggles x0 y0 k _ 8 (by omega) t') disjoint).congr
      fun _ _ => Nat.exists_lt_succ_right.symm

/-! DRW (R131). -/

/-- The set of cells of the loop is the set of cells R131 names. -/
theorem rowsHit_iff_spriteHits (s : State) (x y : Reg) (n : Nat) (cx : Fin 64) (cy : Fin 32) :
    RowsHit s (s.getV x) (s.getV y) s.index.toNat n cx cy ↔ SpriteHits s x y n cx cy := by
  have column : ∀ bit, cx = pixelCol (s.getV x) bit ↔ cx.val = ((s.getV x).toNat + bit) % 64 := fun _ => Fin.ext_iff
  have line : ∀ row, cy = pixelRow (s.getV y) row ↔ cy.val = ((s.getV y).toNat + row) % 32 := fun _ => Fin.ext_iff
  simp only [RowsHit, RowHits, BitHits, SpriteHits, column, line]
  constructor
  · rintro ⟨row, hrow, bit, hbit, hset, hcx, hcy⟩
    exact ⟨row, bit, hrow, hbit, hset, hcx, hcy⟩
  · rintro ⟨row, bit, hrow, hbit, hset, hcx, hcy⟩
    exact ⟨row, hrow, bit, hbit, hset, hcx, hcy⟩

theorem exec_drw_of_ok {x y : Reg} {n : Nibble} {s t : State}
    (h : drawRows (s.getV x) (s.getV y) s.index.toNat n.toNat (s.setV regF 0#8) = .ok t) :
    exec (.drw x y n) s = .next (t.setDirty true) := by
  simp only [exec, execDrw, h]

theorem exec_drw_of_error {x y : Reg} {n : Nibble} {s : State} {f : CpuFault}
    (h : drawRows (s.getV x) (s.getV y) s.index.toNat n.toNat (s.setV regF 0#8) = .error f) :
    exec (.drw x y n) s = .next (takeFault f (scrambleDisplay s)) := by
  simp only [exec, execDrw, h]

/-- With its rows in memory, DRW clears VF, toggles the cells under the sprite and sets DIRTY; of the state only V and
FB differ before DIRTY is set. -/
theorem exec_drw_fits {s : State} (x y : Reg) {n : Nibble} (h : n.toNat = 0 ∨ s.index.toNat + n.toNat ≤ 0x1000) :
    ∃ t, exec (.drw x y n) s = .next (t.setDirty true) ∧
      Toggled (SpriteHits s x y n.toNat) (s.setV 0xF 0#8) t ∧ t = { s with v := t.v, fb := t.fb } := by
  have := n.isLt
  obtain ⟨t, ht⟩ := drawRows_ok (s.getV x) (s.getV y) s.index.toNat n.toNat (s.setV regF 0#8) h
  have toggled := drawRows_toggles _ _ _ _ (by omega) ht
  have rest := drawRows_rest _ _ _ _ _ _ ht
  exact ⟨t, exec_drw_of_ok ht, toggled.congr (rowsHit_iff_spriteHits s x y n.toNat), rest⟩

theorem exec_drw_past_end {s : State} (x y : Reg) {n : Nibble} (h0 : n.toNat ≠ 0)
    (h : 0x1000 < s.index.toNat + n.toNat) : exec (.drw x y n) s =
      .next (takeFault (.addressOutOfRange (max s.index.toNat 0x1000)) (scrambleDisplay s)) :=
  exec_drw_of_error (drawRows_error _ _ _ _ _ h0 h)

/-- A drawing from the cleared VF, with DIRTY set after it, changes VF, its cells and DIRTY only. -/
theorem Toggled.keeps_setDirty {hits : Fin 64 → Fin 32 → Prop} {s t : State} (h : Toggled hits (s.setV 0xF 0#8) t)
    (rest : t = { s with v := t.v, fb := t.fb }) (b : Bool) :
    Keeps { v := fun r => r = 0xF, cell := hits, dirty := True } s (t.setDirty b) := by
  obtain ⟨-, miss, -, -, registers⟩ := h
  rw [rest] at miss registers ⊢
  exact { Keeps.refl _ s with
    v := fun r hr => (registers r hr).trans ((keeps_setV s 0xF 0#8).v r hr)
    cell := miss
    dirty := fun n => absurd trivial n }

/-- Settles O14: the clauses of `Toggled` for the sprite's cells, VF having been cleared first. -/
theorem drwXorsTheSprite : Obligations.DrwXorsTheSprite := by
  intro s x y n h
  obtain ⟨t, ht, toggled, rest⟩ := exec_drw_fits x y h
  refine ⟨_, ht, toggled.hit, ?collision, ?noCollision, rfl, ?mem, toggled.keeps_setDirty rest true⟩
  case collision =>
    rintro ⟨cx, cy, hit, hset⟩
    exact toggled.collision cx cy hit hset
  case noCollision =>
    intro none
    have cleared : (s.setV 0xF 0#8).getV 0xF = 0#8 := by simp
    refine (toggled.noCollision fun cx cy hit => ?_).trans cleared
    exact Bool.eq_false_iff.mpr fun hset => none ⟨cx, cy, hit, hset⟩
  case mem => rw [State.setDirty_mem, rest]

/-- The fault of DRW leaves free values in VF, FB and DIRTY, one more draw and one more record entry (R237). -/
theorem keeps_scrambleDisplay_takeFault (f : CpuFault) (s : State) :
    Keeps { v := fun r => r = 0xF, cell := fun _ _ => True, dirty := True, faultRecord := True, draws := True }
      s (takeFault f (scrambleDisplay s)) :=
  { keeps_setV s 0xF (Config.faultVf s.draws) with
    cell := fun _ _ h => absurd trivial h
    dirty := fun h => absurd trivial h
    faultRecord := fun h => absurd trivial h
    draws := fun h => absurd trivial h }

/-- Settles O15: the first failing row is the fault, and R237's write set bounds what it leaves. -/
theorem drwFaultsPastTheEndOfMemory : Obligations.DrwFaultsPastTheEndOfMemory := by
  intro s x y n h0 h
  exact ⟨_, exec_drw_past_end x y h0 h, rfl, rfl, keeps_scrambleDisplay_takeFault _ s⟩

/-- The cells a sprite covers depend on I, the two coordinates and the bytes of its rows. -/
theorem spriteHits_congr {s u : State} {x y : Reg} {n : Nat} (hindex : u.index = s.index) (hx : u.getV x = s.getV x)
    (hy : u.getV y = s.getV y)
    (hrows : ∀ row < n, u.byteAt (s.index.toNat + row) = s.byteAt (s.index.toNat + row)) (cx : Fin 64) (cy : Fin 32) :
    SpriteHits u x y n cx cy ↔ SpriteHits s x y n cx cy := by
  simp only [SpriteHits, hindex, hx, hy]
  constructor
  · rintro ⟨row, bit, hrow, hbit, hset, hcell⟩
    exact ⟨row, bit, hrow, hbit, hrows row hrow ▸ hset, hcell⟩
  · rintro ⟨row, bit, hrow, hbit, hset, hcell⟩
    exact ⟨row, bit, hrow, hbit, (hrows row hrow).symm ▸ hset, hcell⟩

/-- Settles O16: both draws toggle the same cells, so each cell comes back; the second meets a set cell exactly where
the first turned one on. -/
theorem secondDrawUndoesTheFirst : Obligations.SecondDrawUndoesTheFirst := by
  intro s t u x y n h draw hindex hx hy hrows hcells
  obtain ⟨t', draw', toggled, -, -, -, -, kept⟩ := drwXorsTheSprite s x y n h
  obtain rfl := next_unique draw draw'
  obtain ⟨w, redraw, retoggled, collision, noCollision, -, -, rekept⟩ := drwXorsTheSprite u x y n (by rwa [hindex])
  have hits := spriteHits_congr hindex hx hy hrows
  have turnedOn : (∃ cx cy, SpriteHits u x y n.toNat cx cy ∧ u.getCell cx cy = true) ↔
      ∃ cx cy, s.getCell cx cy = false ∧ t.getCell cx cy = true := by
    refine exists_congr fun cx => exists_congr fun cy => ?_
    rw [hits, hcells]
    by_cases hit : SpriteHits s x y n.toNat cx cy
    · simp [hit, toggled cx cy hit]
    · simp [hit, kept.cell cx cy hit]
  refine ⟨w, redraw, ?cells, ?flag⟩
  case cells =>
    intro cx cy
    by_cases hit : SpriteHits s x y n.toNat cx cy
    · rw [retoggled cx cy ((hits cx cy).mpr hit), hcells, toggled cx cy hit, Bool.not_not]
    · rw [rekept.cell cx cy (mt (hits cx cy).mp hit), hcells, kept.cell cx cy hit]
  case flag =>
    rw [← turnedOn]
    refine ⟨fun hflag => ?_, collision⟩
    by_contra none
    rw [noCollision none] at hflag
    exact absurd hflag (by decide)

end Sys2Proof.Machine
end

section
/-! Every instruction completes (spec/60_exceptions.md rules R230, R242): which pieces of state it may change, which
outcomes its cycle may have, and that it keeps memory in canonical form. Said once for all 35 instructions; the
statements about the whole machine are read off it. -/

namespace Sys2Proof.Machine

/-! Outcomes and records (R230, R231, R236). -/

/-- From s to t the outcome o went to its own record, and nothing to the other. -/
def Records (o : CycleOutcome) (s t : State) : Prop :=
  match o with
  | .ok => t.faultRecord = s.faultRecord ∧ t.diagLog = s.diagLog
  | .fault f => t.faultRecord = s.faultRecord ++ [.entry f] ∧ t.diagLog = s.diagLog
  | .diag d => t.faultRecord = s.faultRecord ∧ t.diagLog = s.diagLog ++ [.entry d]

/-- What the host reads off the records is the outcome that was recorded (log entry 35). -/
theorem cycleOutcome_of_records {o : CycleOutcome} {s t : State} (h : Records o s t) : cycleOutcome s t = o := by
  cases o <;> obtain ⟨hfault, hdiag⟩ := h <;> simp [cycleOutcome, hfault, hdiag]

theorem Records.faultRecord_grows {o : CycleOutcome} {s t : State} (h : Records o s t) :
    s.faultRecord <+: t.faultRecord := by
  cases o <;> obtain ⟨hfault, -⟩ := h <;> simp [hfault]

theorem Records.diagLog_grows {o : CycleOutcome} {s t : State} (h : Records o s t) : s.diagLog <+: t.diagLog := by
  cases o <;> obtain ⟨-, hdiag⟩ := h <;> simp [hdiag]

/-! What each instruction may do. -/

/-- The pieces of state an instruction may change: those the state record of R30 names for it, the write set of R237
after a fault, and the record its outcome goes to. -/
def footprint : Instr → Changes
  | .cls => { cell := fun _ _ => True, dirty := True }
  | .ret => { sp := True, pc := True, faultRecord := True }
  | .sys _ => { diagLog := True }
  | .call _ => { slot := fun _ => True, sp := True, pc := True, faultRecord := True }
  | .jp _ | .jpV0 _ | .seImm _ _ | .sneImm _ _ | .seReg _ _ | .sneReg _ _ => { pc := True }
  | .ldImm x _ | .addImm x _ | .ldReg x _ | .or x _ | .and x _ | .xor x _ | .ldVxDt x => { v := fun r => r = x }
  | .addReg x _ | .sub x _ | .shr x _ | .subn x _ | .shl x _ => { v := fun r => r = x ∨ r = 0xF }
  | .rnd x _ => { v := fun r => r = x, draws := True }
  | .drw _ _ _ =>
    { v := fun r => r = 0xF, cell := fun _ _ => True, dirty := True, faultRecord := True, draws := True }
  | .skp _ | .sknp _ => { pc := True, faultRecord := True }
  | .ldK x => { v := fun r => r = x, pc := True }
  | .ldDt _ => { dt := True }
  | .ldSt _ => { st := True }
  | .ldI _ | .addI _ | .ldF _ => { index := True }
  | .ldB _ => { mem := fun _ => True, faultRecord := True, draws := True }
  | .ldMemI _ => { mem := fun _ => True, index := True, faultRecord := True, draws := True }
  | .ldRegI x => { v := fun r => r ≤ x, index := True, faultRecord := True, draws := True }

/-- The outcomes the cycle of an instruction may have (R230 to R236). -/
def mayEnd : Instr → CycleOutcome → Bool
  | _, .ok => true
  | .sys _, .diag _ => true
  | .call _, .fault (.stackOverflow _) => true
  | .ret, .fault (.stackUnderflow _) => true
  | .drw _ _ _, .fault (.addressOutOfRange _) | .ldB _, .fault (.addressOutOfRange _)
  | .ldMemI _, .fault (.addressOutOfRange _) | .ldRegI _, .fault (.addressOutOfRange _) => true
  | .skp _, .fault (.keyIndexOutOfRange _) | .sknp _, .fault (.keyIndexOutOfRange _) => true
  | _, _ => false

/-- The two instructions that store to memory (R193, R195). -/
def storesBytes : Instr → Bool
  | .ldB _ | .ldMemI _ => true
  | _ => false

/-- What a completed instruction has done. -/
structure Completes (i : Instr) (s t : State) : Prop where
  frame : Keeps (footprint i) s t
  mem : storesBytes i = false → t.mem = s.mem
  wf : Memory.wf s.cfg s.mem = true → Memory.wf t.cfg t.mem = true
  outcome : ∃ o, Records o s t ∧ mayEnd i o = true

section

variable {i : Instr} {c : Changes} {s t : State}

/-- An unchanged memory stays canonical. -/
theorem Keeps.wf_of_mem (frame : Keeps c s t) (mem : t.mem = s.mem) (h : Memory.wf s.cfg s.mem = true) :
    Memory.wf t.cfg t.mem = true := by
  rw [frame.cfg, mem, h]

theorem mayEnd_ok : mayEnd i .ok = true := by
  cases i <;> rfl

theorem Keeps.records_ok (frame : Keeps c s t) (noFault : ¬ c.faultRecord) (noDiag : ¬ c.diagLog) :
    Records .ok s t :=
  ⟨frame.faultRecord noFault, frame.diagLog noDiag⟩

/-- An instruction that leaves memory alone and records nothing. -/
theorem completes_quietly (frame : Keeps c s t) (within : c.Within (footprint i)) (mem : t.mem = s.mem)
    (noFault : ¬ c.faultRecord) (noDiag : ¬ c.diagLog) : Completes i s t where
  frame := frame.mono within
  mem _ := mem
  wf := frame.wf_of_mem mem
  outcome := ⟨.ok, frame.records_ok noFault noDiag, mayEnd_ok⟩

/-- An instruction that leaves memory alone and takes the fault f. -/
theorem completes_faulting {f : CpuFault} (frame : Keeps c s t) (within : c.Within (footprint i)) (mem : t.mem = s.mem)
    (record : t.faultRecord = s.faultRecord ++ [.entry f]) (noDiag : ¬ c.diagLog)
    (may : mayEnd i (.fault f) = true) : Completes i s t where
  frame := frame.mono within
  mem _ := mem
  wf := frame.wf_of_mem mem
  outcome := ⟨.fault f, ⟨record, frame.diagLog noDiag⟩, may⟩

end

/-! The instructions that can end in more than one way. -/

theorem call_completes (nnn : Addr12) (s : State) :
    ∃ t, exec (.call nnn) s = .next t ∧ Completes (.call nnn) s t := by
  by_cases room : s.sp.val < 16
  · obtain ⟨t, ht, -, -, -, mem, frame⟩ := callPushesReturnAddress s nnn room
    exact ⟨t, ht, completes_quietly frame (by constructor <;> simp [footprint]) mem id id⟩
  · obtain ⟨t, ht, record, mem, frame⟩ := callOnFullStackFaults s nnn (by omega)
    exact ⟨t, ht, completes_faulting frame (by constructor <;> simp [footprint]) mem record id rfl⟩

theorem ret_completes (s : State) : ∃ t, exec .ret s = .next t ∧ Completes .ret s t := by
  by_cases empty : s.sp.val = 0
  · obtain ⟨t, ht, record, mem, frame⟩ := retOnEmptyStackFaults s empty
    exact ⟨t, ht, completes_faulting frame (by constructor <;> simp [footprint]) mem record id rfl⟩
  · obtain ⟨t, ht, -, -, mem, frame⟩ := retPopsReturnAddress s empty
    exact ⟨t, ht, completes_quietly frame (by constructor <;> simp [footprint]) mem id id⟩

theorem drw_completes (x y : Reg) (n : Nibble) (s : State) :
    ∃ t, exec (.drw x y n) s = .next t ∧ Completes (.drw x y n) s t := by
  by_cases fits : n.toNat = 0 ∨ s.index.toNat + n.toNat ≤ 0x1000
  · obtain ⟨t, ht, -, -, -, -, mem, frame⟩ := drwXorsTheSprite s x y n fits
    exact ⟨t, ht, completes_quietly frame (by constructor <;> simp [footprint]) mem id id⟩
  · obtain ⟨t, ht, record, mem, frame⟩ := drwFaultsPastTheEndOfMemory s x y n (by omega) (by omega)
    exact ⟨t, ht, completes_faulting frame (.refl _) mem record id rfl⟩

theorem skp_completes (x : Reg) (s : State) : ∃ t, exec (.skp x) s = .next t ∧ Completes (.skp x) s t := by
  by_cases key : (s.getV x).toNat < 16
  · exact ⟨_, exec_skp_key (k := ⟨_, key⟩) rfl, completes_quietly (keeps_skipIf _ s)
      (by constructor <;> simp [footprint]) (skipIf_mem _ s) id id⟩
  · exact ⟨_, exec_skp_above (by omega), completes_faulting (keeps_takeFault s _)
      (by constructor <;> simp [footprint]) rfl rfl id rfl⟩

theorem sknp_completes (x : Reg) (s : State) : ∃ t, exec (.sknp x) s = .next t ∧ Completes (.sknp x) s t := by
  by_cases key : (s.getV x).toNat < 16
  · exact ⟨_, exec_sknp_key (k := ⟨_, key⟩) rfl, completes_quietly (keeps_skipIf _ s)
      (by constructor <;> simp [footprint]) (skipIf_mem _ s) id id⟩
  · exact ⟨_, exec_sknp_above (by omega), completes_faulting (keeps_takeFault s _)
      (by constructor <;> simp [footprint]) rfl rfl id rfl⟩

theorem ldK_completes (x : Reg) (s : State) : ∃ t, exec (.ldK x) s = .next t ∧ Completes (.ldK x) s t := by
  cases key : lowestKeyDown s with
  | none => exact ⟨_, exec_ldK_none x key, completes_quietly (keeps_setPc s _)
      (by constructor <;> simp [footprint]) rfl id id⟩
  | some k => exact ⟨_, exec_ldK_down x key, completes_quietly (keeps_setV s x _)
      (by constructor <;> simp [footprint]) rfl id id⟩

theorem ldRegI_completes (x : Reg) (s : State) : ∃ t, exec (.ldRegI x) s = .next t ∧ Completes (.ldRegI x) s t := by
  by_cases fits : s.index.toNat + x.val ≤ 0xFFF
  · obtain ⟨t, ht, -, -, mem, frame⟩ := loadReadsRegisters s x fits
    exact ⟨t, ht, completes_quietly frame (by constructor <;> simp [footprint]) mem id id⟩
  · obtain ⟨t, ht, record, mem, frame⟩ := loadFaultsPastTheEndOfMemory s x (by omega)
    exact ⟨t, ht, completes_faulting frame (.refl _) mem record id rfl⟩

/-! The two that store: what is written exists, so the canonical form stays (R72). -/

theorem wf_scrambleBcd {s : State} (h : Memory.wf s.cfg s.mem = true) :
    Memory.wf (scrambleBcd s).cfg (scrambleBcd s).mem = true :=
  wf_scrambleBytes s.draws s.index.toNat 3 s h

theorem wf_scrambleDump (count : Nat) {s : State} (h : Memory.wf s.cfg s.mem = true) :
    Memory.wf (scrambleDump count s).cfg (scrambleDump count s).mem = true :=
  wf_scrambleBytes s.draws s.index.toNat count s h

theorem ldB_completes (x : Reg) (s : State) : ∃ t, exec (.ldB x) s = .next t ∧ Completes (.ldB x) s t := by
  by_cases fits : s.index.toNat ≤ 0xFFD
  · obtain ⟨t, ht, written⟩ := exec_ldB_fits x fits
    exact ⟨t, ht, {
      frame := written.keeps.mono (by constructor <;> simp [footprint])
      mem := fun h => (nomatch h)
      wf := written.wf (by rw [bcdDigits_length, Config.memSize]; omega)
      outcome := ⟨.ok, written.keeps.records_ok id id, rfl⟩ }⟩
  · have frame := keeps_scrambleBcd_takeFault (.addressOutOfRange (max s.index.toNat 0x1000)) s
    exact ⟨_, exec_ldB_past_end x (by omega), {
      frame := frame.mono (by constructor <;> simp [footprint])
      mem := fun h => (nomatch h)
      wf := wf_scrambleBcd
      outcome := ⟨.fault (.addressOutOfRange (max s.index.toNat 0x1000)),
        ⟨by rw [takeFault_faultRecord, scrambleBcd_faultRecord], frame.diagLog id⟩, rfl⟩ }⟩

theorem ldMemI_completes (x : Reg) (s : State) : ∃ t, exec (.ldMemI x) s = .next t ∧ Completes (.ldMemI x) s t := by
  by_cases fits : s.index.toNat + x.val ≤ 0xFFF
  · obtain ⟨t, ht, written⟩ := exec_ldMemI_fits fits
    have frame := written.keeps.setIndexIf s.cfg.incIStore (advancedIndex s.index x)
    exact ⟨_, ht, {
      frame := frame.mono (by constructor <;> simp [footprint])
      mem := fun h => (nomatch h)
      wf := fun h => by
        rw [setIndexIf_cfg, setIndexIf_mem]
        exact written.wf (by rw [regBlock_length, Config.memSize]; omega) h
      outcome := ⟨.ok, frame.records_ok id id, rfl⟩ }⟩
  · have frame := keeps_scrambleDump_takeFault (.addressOutOfRange (max s.index.toNat 0x1000)) (regCount x) s
    exact ⟨_, exec_ldMemI_past_end (by omega), {
      frame := frame.mono (by constructor <;> simp [footprint])
      mem := fun h => (nomatch h)
      wf := wf_scrambleDump (regCount x)
      outcome := ⟨.fault (.addressOutOfRange (max s.index.toNat 0x1000)),
        ⟨by rw [takeFault_faultRecord, scrambleDump_faultRecord], frame.diagLog id⟩, rfl⟩ }⟩

/-- A result and the flag change V[x] and VF only. -/
theorem keeps_writeRf (x : Reg) (r : Byte) (f : Bool) (s : State) :
    Keeps { v := fun q => q = x ∨ q = 0xF } s (writeRf x r f s) := by
  obtain ⟨-, -, frame⟩ := writeRf_result_flag x r f s
  exact frame

theorem writeRf_completes {i : Instr} (x : Reg) (r : Byte) (f : Bool) (s : State)
    (within : Changes.Within { v := fun q => q = x ∨ q = 0xF } (footprint i)) : Completes i s (writeRf x r f s) :=
  completes_quietly (keeps_writeRf x r f s) within (writeRf_mem x r f s) id id

/-- From every state every instruction completes, within its footprint and with one of its outcomes. -/
theorem exec_completes (i : Instr) (s : State) : ∃ t, exec i s = .next t ∧ Completes i s t :=
  match i with
  | .cls => ⟨_, exec_cls s, completes_quietly (keeps_setFb_setDirty _ _ s) (.refl _) rfl id id⟩
  | .ret => ret_completes s
  | .sys nnn => ⟨_, exec_sys nnn s, keeps_reportUnknown s _ _, fun _ => rfl, id, .diag _, ⟨rfl, rfl⟩, rfl⟩
  | .jp nnn => ⟨_, exec_jp nnn s, completes_quietly (keeps_setPc s _) (.refl _) rfl id id⟩
  | .call nnn => call_completes nnn s
  | .seImm x kk => ⟨_, exec_seImm x kk s, completes_quietly (keeps_skipIf _ s) (.refl _) (skipIf_mem _ s) id id⟩
  | .sneImm x kk => ⟨_, exec_sneImm x kk s, completes_quietly (keeps_skipIf _ s) (.refl _) (skipIf_mem _ s) id id⟩
  | .seReg x y => ⟨_, exec_seReg x y s, completes_quietly (keeps_skipIf _ s) (.refl _) (skipIf_mem _ s) id id⟩
  | .ldImm x kk => ⟨_, exec_ldImm x kk s, completes_quietly (keeps_setV s x _) (.refl _) rfl id id⟩
  | .addImm x kk => ⟨_, exec_addImm x kk s, completes_quietly (keeps_setV s x _) (.refl _) rfl id id⟩
  | .ldReg x y => ⟨_, exec_ldReg x y s, completes_quietly (keeps_setV s x _) (.refl _) rfl id id⟩
  | .or x y => ⟨_, exec_or x y s, completes_quietly (keeps_setV s x _) (.refl _) rfl id id⟩
  | .and x y => ⟨_, exec_and x y s, completes_quietly (keeps_setV s x _) (.refl _) rfl id id⟩
  | .xor x y => ⟨_, exec_xor x y s, completes_quietly (keeps_setV s x _) (.refl _) rfl id id⟩
  | .addReg x y => ⟨_, exec_addReg x y s, writeRf_completes x _ _ s (.refl _)⟩
  | .sub x y => ⟨_, exec_sub x y s, writeRf_completes x _ _ s (.refl _)⟩
  | .shr x y => ⟨_, exec_shr x y s, writeRf_completes x _ _ s (.refl _)⟩
  | .subn x y => ⟨_, exec_subn x y s, writeRf_completes x _ _ s (.refl _)⟩
  | .shl x y => ⟨_, exec_shl x y s, writeRf_completes x _ _ s (.refl _)⟩
  | .sneReg x y => ⟨_, exec_sneReg x y s, completes_quietly (keeps_skipIf _ s) (.refl _) (skipIf_mem _ s) id id⟩
  | .ldI nnn => ⟨_, exec_ldI nnn s, completes_quietly (keeps_setIndex s _) (.refl _) rfl id id⟩
  | .jpV0 nnn => ⟨_, exec_jpV0 nnn s, completes_quietly (keeps_setPc s _) (.refl _) rfl id id⟩
  | .rnd x kk => ⟨_, exec_rnd x kk s, completes_quietly (keeps_setV_countDraw s x _) (.refl _) rfl id id⟩
  | .drw x y n => drw_completes x y n s
  | .skp x => skp_completes x s
  | .sknp x => sknp_completes x s
  | .ldVxDt x => ⟨_, exec_ldVxDt x s, completes_quietly (keeps_setV s x _) (.refl _) rfl id id⟩
  | .ldK x => ldK_completes x s
  | .ldDt x => ⟨_, exec_ldDt x s, completes_quietly (keeps_setDt s _) (.refl _) rfl id id⟩
  | .ldSt x => ⟨_, exec_ldSt x s, completes_quietly (keeps_setSt s _) (.refl _) rfl id id⟩
  | .addI x => ⟨_, exec_addI x s, completes_quietly (keeps_setIndex s _) (.refl _) rfl id id⟩
  | .ldF x => ⟨_, exec_ldF x s, completes_quietly (keeps_setIndex s _) (.refl _) rfl id id⟩
  | .ldB x => ldB_completes x s
  | .ldMemI x => ldMemI_completes x s
  | .ldRegI x => ldRegI_completes x s

/-- The same for a next state that is given. -/
theorem completes_of_exec {i : Instr} {s t : State} (h : exec i s = .next t) : Completes i s t := by
  obtain ⟨t', h', completes⟩ := exec_completes i s
  exact next_unique h' h ▸ completes

end Sys2Proof.Machine
end

section
/-! The statements about the whole machine, read off `Completes`: the outcome of a cycle, the invariant, host runs,
who writes what, and the depth of the call stack. -/

namespace Sys2Proof.Machine

/-! The cycle and the invariant. -/

/-- What every cycle does: it completes, keeps the parameters and the canonical form, and records its one outcome. -/
theorem step_completes (s : State) : ∃ t o, step s = .next t ∧ Records o s t ∧ t.cfg = s.cfg ∧
    (Memory.wf s.cfg s.mem = true → Memory.wf t.cfg t.mem = true) := by
  cases hw : fetchWord s with
  | error f => exact ⟨_, .fault f, step_of_fetch_fault hw, ⟨rfl, rfl⟩, rfl, id⟩
  | ok w =>
    cases hi : decode w with
    | error e => exact ⟨_, .diag _, step_of_unknown hw hi, ⟨rfl, rfl⟩, rfl, id⟩
    | ok i =>
      obtain ⟨t, ht, done⟩ := exec_completes i (advancePc s)
      obtain ⟨o, records, -⟩ := done.outcome
      exact ⟨t, o, (step_of_decoded hw hi).trans ht, records, done.frame.cfg, done.wf⟩

/-- Settles O8: the step completes with a recorded outcome, and the host reads that outcome. -/
theorem cycleHasExactlyOneOutcome : Obligations.CycleHasExactlyOneOutcome := by
  intro s
  obtain ⟨t, o, ht, records, -, -⟩ := step_completes s
  refine ⟨t, o, ht, ?answer, ?record⟩
  case answer => simp only [hostStep, hostCycle, ht, cycleOutcome_of_records records]
  case record => cases o <;> exact records

/-- The invariant is kept by whatever keeps the parameters and the canonical form. -/
theorem stateInv_of_wf {s t : State} (cfg : t.cfg = s.cfg)
    (wf : Memory.wf s.cfg s.mem = true → Memory.wf t.cfg t.mem = true) (h : stateInv s = true) :
    stateInv t = true := by
  simp only [stateInv, Bool.and_eq_true] at h ⊢
  obtain ⟨canonical, legal⟩ := h
  exact ⟨wf canonical, by rw [cfg, legal]⟩

/-- Settles O56: `step_completes` keeps both conjuncts of the invariant. -/
theorem everyStepKeepsInvariant : Obligations.EveryStepKeepsInvariant := by
  intro s t h ht
  obtain ⟨t', o, ht', -, cfg, wf⟩ := step_completes s
  obtain rfl := next_unique ht ht'
  exact stateInv_of_wf cfg wf h

/-! Host runs. -/

/-- What a host operation, and so every run of them, keeps. -/
structure HostKeeps (s t : State) : Prop where
  cfg : t.cfg = s.cfg
  wf : Memory.wf s.cfg s.mem = true → Memory.wf t.cfg t.mem = true
  faultRecord : s.faultRecord <+: t.faultRecord
  diagLog : s.diagLog <+: t.diagLog

theorem HostKeeps.refl (s : State) : HostKeeps s s :=
  ⟨rfl, id, ⟨[], List.append_nil _⟩, ⟨[], List.append_nil _⟩⟩

theorem HostKeeps.trans {s t u : State} (h : HostKeeps s t) (h' : HostKeeps t u) : HostKeeps s u :=
  ⟨h'.cfg.trans h.cfg, h'.wf ∘ h.wf, h.faultRecord.trans h'.faultRecord, h.diagLog.trans h'.diagLog⟩

/-- An operation that leaves memory and both records alone. -/
theorem Keeps.hostKeeps {c : Changes} {s t : State} (frame : Keeps c s t) (mem : t.mem = s.mem)
    (noFault : ¬ c.faultRecord) (noDiag : ¬ c.diagLog) : HostKeeps s t where
  cfg := frame.cfg
  wf := frame.wf_of_mem mem
  faultRecord := by rw [frame.faultRecord noFault]
  diagLog := by rw [frame.diagLog noDiag]

/-- A reset appends a marker to each record; its memory lists no byte. -/
theorem hostReset_keeps (s : State) : HostKeeps s (hostReset s) :=
  ⟨rfl, fun _ => State.initial_mem_wf s.cfg, ⟨_, rfl⟩, ⟨_, rfl⟩⟩

theorem hostLoad_keeps (bytes : List Byte) (s : State) : HostKeeps s (hostLoad bytes s).1 := by
  unfold hostLoad
  split
  · exact HostKeeps.refl s
  next fits =>
    have written := storeBytes_wrote s.cfg.loadAddr.toNat bytes s
    exact ⟨written.keeps.cfg, written.wf (by omega), by rw [written.keeps.faultRecord id],
      by rw [written.keeps.diagLog id]⟩

theorem hostCycle_keeps {s t : State} {r : HostResult} (h : hostCycle s = .next (t, r)) : HostKeeps s t := by
  obtain ⟨t', o, ht, records, cfg, wf⟩ := step_completes s
  simp only [hostCycle, ht] at h
  cases h
  exact ⟨cfg, wf, records.faultRecord_grows, records.diagLog_grows⟩

theorem hostStep_keeps {op : HostOp} {s t : State} {r : HostResult} (h : hostStep op s = .next (t, r)) :
    HostKeeps s t := by
  cases op with
  | reset => cases h; exact hostReset_keeps s
  | loadProgram bytes =>
    have result : hostLoad bytes s = (t, r) := Host.Outcome.next.inj h
    have keeps := hostLoad_keeps bytes s
    rwa [result] at keeps
  | runCycle => exact hostCycle_keeps h
  | tickTimers => cases h; exact (keeps_hostTick s).hostKeeps (by rw [hostTick_rest]) id id
  | setKey index pressed =>
    simp only [hostStep, hostSetKey] at h
    split at h <;> cases h
    exact (keeps_setKey s _ pressed).hostKeeps rfl id id
  | framebufferSnapshot => cases h; exact HostKeeps.refl s
  | consumeDirtyFlag => cases h; exact (keeps_setDirty s false).hostKeeps rfl id id
  | beepPending => cases h; exact (keeps_setBeep s false).hostKeeps rfl id id

theorem hostRun_keeps {ops : List HostOp} {s t : State} (h : hostRun ops s = .next t) : HostKeeps s t := by
  induction ops generalizing s with
  | nil => cases h; exact HostKeeps.refl _
  | cons op ops ih =>
    simp only [hostRun] at h
    split at h
    next u r hop => exact (hostStep_keeps hop).trans (ih h)
    next => cases h
    next => cases h

/-- Settles O57: by induction on the run, `hostRun_keeps`. -/
theorem everyHostRunKeepsInvariantAndRecords : Obligations.EveryHostRunKeepsInvariantAndRecords := by
  intro ops s t h run
  obtain ⟨cfg, wf, faultRecord, diagLog⟩ := hostRun_keeps run
  exact ⟨stateInv_of_wf cfg wf h, cfg, faultRecord, diagLog⟩

/-! Who writes what. A piece held as a vector is unchanged when each of its entries is. -/

theorem stack_eq_of_getSlot {s t : State} (h : ∀ j, t.getSlot j = s.getSlot j) : t.stack = s.stack :=
  Vector.ext fun j hj => h ⟨j, hj⟩

theorem key_eq_of_getKey {s t : State} (h : ∀ k, t.getKey k = s.getKey k) : t.key = s.key :=
  Vector.ext fun k hk => h ⟨k, hk⟩

theorem fb_eq_of_getCell {s t : State} (h : ∀ x y, t.getCell x y = s.getCell x y) : t.fb = s.fb :=
  Vector.ext fun y hy => Vector.ext fun x hx => h ⟨x, hx⟩ ⟨y, hy⟩

section

variable {c : Changes} {s t : State}

theorem Keeps.slot_of_stack_ne (h : Keeps c s t) (hne : t.stack ≠ s.stack) : ∃ j, c.slot j := by
  by_contra none
  exact hne (stack_eq_of_getSlot fun j => h.slot j fun hj => none ⟨j, hj⟩)

theorem Keeps.cell_of_fb_ne (h : Keeps c s t) (hne : t.fb ≠ s.fb) : ∃ x y, c.cell x y := by
  by_contra none
  exact hne (fb_eq_of_getCell fun x y => h.cell x y fun hxy => none ⟨x, y, hxy⟩)

end

section

variable {i : Instr}

theorem footprint_key (k : Fin 16) : ¬ (footprint i).key k := by cases i <;> exact id

theorem footprint_beep : ¬ (footprint i).beep := by cases i <;> exact id

theorem footprint_dt (h : (footprint i).dt) : ∃ x, i = .ldDt x := by
  cases i <;> simp_all [footprint]

theorem footprint_st (h : (footprint i).st) : ∃ x, i = .ldSt x := by
  cases i <;> simp_all [footprint]

theorem footprint_slot (h : ∃ j, (footprint i).slot j) : ∃ nnn, i = .call nnn := by
  cases i <;> simp_all [footprint]

theorem footprint_sp (h : (footprint i).sp) : i = .ret ∨ ∃ nnn, i = .call nnn := by
  cases i <;> simp_all [footprint]

theorem footprint_cell (h : ∃ x y, (footprint i).cell x y) : i = .cls ∨ ∃ x y n, i = .drw x y n := by
  cases i <;> simp_all [footprint]

theorem footprint_dirty (h : (footprint i).dirty) : i = .cls ∨ ∃ x y n, i = .drw x y n := by
  cases i <;> simp_all [footprint]

theorem footprint_index (h : (footprint i).index) :
    (∃ nnn, i = .ldI nnn) ∨ ∃ x, i = .addI x ∨ i = .ldF x ∨ i = .ldMemI x ∨ i = .ldRegI x := by
  cases i <;> simp_all [footprint]

theorem footprint_diagLog (h : (footprint i).diagLog) : ∃ nnn, i = .sys nnn := by
  cases i <;> simp_all [footprint]

theorem footprint_faultRecord (h : (footprint i).faultRecord) :
    i = .ret ∨ (∃ nnn, i = .call nnn) ∨ (∃ x y n, i = .drw x y n) ∨
      ∃ x, i = .skp x ∨ i = .sknp x ∨ i = .ldB x ∨ i = .ldMemI x ∨ i = .ldRegI x := by
  cases i <;> simp_all [footprint]

theorem storesBytes_writers (h : storesBytes i = true) : ∃ x, i = .ldB x ∨ i = .ldMemI x := by
  cases i <;> simp_all [storesBytes]

/-- The writers of a register other than VF. -/
theorem footprint_v {r : Reg} (hr : r ≠ 0xF) (h : (footprint i).v r) :
    (∃ kk, i = .ldImm r kk ∨ i = .addImm r kk ∨ i = .rnd r kk) ∨
    (∃ y, i = .ldReg r y ∨ i = .or r y ∨ i = .and r y ∨ i = .xor r y ∨ i = .addReg r y ∨ i = .sub r y ∨
      i = .shr r y ∨ i = .subn r y ∨ i = .shl r y) ∨
    i = .ldVxDt r ∨ i = .ldK r ∨ ∃ x, r ≤ x ∧ i = .ldRegI x := by
  cases i <;> simp_all [footprint]

/-- The writers of VF: the register writers with x = 0xF, the flag writers, and DRW. -/
theorem footprint_vF (h : (footprint i).v 0xF) :
    (∃ x y, i = .addReg x y ∨ i = .sub x y ∨ i = .shr x y ∨ i = .subn x y ∨ i = .shl x y) ∨
    (∃ x y n, i = .drw x y n) ∨
    (∃ kk, i = .ldImm 0xF kk ∨ i = .addImm 0xF kk ∨ i = .rnd 0xF kk) ∨
    (∃ y, i = .ldReg 0xF y ∨ i = .or 0xF y ∨ i = .and 0xF y ∨ i = .xor 0xF y) ∨
    i = .ldVxDt 0xF ∨ i = .ldK 0xF ∨ i = .ldRegI 0xF := by
  cases i
  case ldRegI x =>
    have last : x = 0xF := le_antisymm (Fin.le_last x) h
    simp [last]
  all_goals simp_all [footprint]

end

/-- Settles O58: a piece that changed is in the instruction's footprint, and the footprints are the listed writers. -/
theorem onlyListedInstructionsWriteEachPiece : Obligations.OnlyListedInstructionsWriteEachPiece := by
  intro i s t run
  obtain ⟨frame, mem, -, -⟩ := completes_of_exec run
  refine ⟨frame.cfg, key_eq_of_getKey fun k => frame.key k (footprint_key k), frame.beep footprint_beep,
    ?dt, ?st, ?stack, ?sp, ?mem, ?display, ?index, ?diagLog, ?faultRecord, ?registers, ?flag⟩
  case dt => exact fun hne => footprint_dt (not_imp_comm.mp frame.dt hne)
  case st => exact fun hne => footprint_st (not_imp_comm.mp frame.st hne)
  case stack => exact fun hne => footprint_slot (frame.slot_of_stack_ne hne)
  case sp => exact fun hne => footprint_sp (not_imp_comm.mp frame.sp hne)
  case mem => exact fun hne => storesBytes_writers (by simpa using mt mem hne)
  case display =>
    rintro (hne | hne)
    · exact footprint_cell (frame.cell_of_fb_ne hne)
    · exact footprint_dirty (not_imp_comm.mp frame.dirty hne)
  case index => exact fun hne => footprint_index (not_imp_comm.mp frame.index hne)
  case diagLog => exact fun hne => footprint_diagLog (not_imp_comm.mp frame.diagLog hne)
  case faultRecord => exact fun hne => footprint_faultRecord (not_imp_comm.mp frame.faultRecord hne)
  case registers => exact fun r hr hne => footprint_v hr (not_imp_comm.mp (frame.v r) hne)
  case flag => exact fun hne => footprint_vF (not_imp_comm.mp (frame.v 0xF) hne)

/-! The depth of the call stack (R151). -/

/-- The fault record of t has no stack overflow that the one of s has not. -/
def NoNewOverflow (s t : State) : Prop :=
  ∀ p, .entry (.stackOverflow p) ∈ t.faultRecord → .entry (.stackOverflow p) ∈ s.faultRecord

theorem noNewOverflow_of_eq {s t : State} (h : t.faultRecord = s.faultRecord) : NoNewOverflow s t :=
  fun _ hp => h ▸ hp

/-- Of all instructions CALL alone can overflow the stack. -/
theorem isCall_of_mayEnd_overflow {i : Instr} {p : Word} (h : mayEnd i (.fault (.stackOverflow p)) = true) :
    isCall i = true := by
  cases i <;> simp_all [mayEnd, isCall]

theorem Completes.noNewOverflow {i : Instr} {s t : State} (h : Completes i s t) (notCall : isCall i = false) :
    NoNewOverflow s t := by
  obtain ⟨o, records, may⟩ := h.outcome
  cases o with
  | ok => exact noNewOverflow_of_eq records.1
  | diag d => exact noNewOverflow_of_eq records.1
  | fault f =>
    intro p hp
    rw [records.1, List.mem_append, List.mem_singleton] at hp
    rcases hp with old | new
    · exact old
    · cases new
      rw [isCall_of_mayEnd_overflow may] at notCall
      cases notCall

/-- An instruction other than RET, with room for its push if it is a CALL. -/
theorem exec_depth (i : Instr) (s : State) (notRet : i ≠ .ret) (room : isCall i = true → s.sp.val < 16) :
    ∃ t, exec i s = .next t ∧ t.sp.val = s.sp.val + (if isCall i then 1 else 0) ∧ NoNewOverflow s t := by
  by_cases call : ∃ nnn, i = .call nnn
  case pos =>
    obtain ⟨nnn, rfl⟩ := call
    obtain ⟨t, ht, -, depth, -, -, frame⟩ := callPushesReturnAddress s nnn (room rfl)
    exact ⟨t, ht, depth, noNewOverflow_of_eq (frame.faultRecord id)⟩
  case neg =>
    have notCall : isCall i = false := by
      cases i <;> simp_all [isCall]
    obtain ⟨t, ht, done⟩ := exec_completes i s
    have depth : t.sp = s.sp := done.frame.sp fun h => (footprint_sp h).elim notRet call
    exact ⟨t, ht, by simp [notCall, depth], done.noNewOverflow notCall⟩

/-- A RET-free sequence with room for its CALLs: the depth goes up by their number, and none overflows. -/
theorem runInstrs_depth (is : List Instr) (s : State) (noRet : .ret ∉ is)
    (room : s.sp.val + is.countP isCall ≤ 16) :
    ∃ t, runInstrs is s = .next t ∧ t.sp.val = s.sp.val + is.countP isCall ∧ NoNewOverflow s t := by
  induction is generalizing s with
  | nil => exact ⟨s, rfl, by simp, fun _ => id⟩
  | cons i rest ih =>
    simp only [List.mem_cons, not_or] at noRet
    obtain ⟨notRet, noRet⟩ := noRet
    rw [List.countP_cons] at room ⊢
    obtain ⟨u, hu, depth, quiet⟩ := exec_depth i s (Ne.symm notRet) fun call => by
      simp only [call, if_true] at room
      omega
    obtain ⟨t, ht, depth', quiet'⟩ := ih u noRet (by omega)
    exact ⟨t, by simp only [runInstrs, hu, ht], by omega, fun p hp => quiet p (quiet' p hp)⟩

/-- Settles O27: `runInstrs_depth` from SP = 0; at 16 the next CALL is O21's, and a RET at 0 is O23's. -/
theorem stackHoldsSixteenCalls : Obligations.StackHoldsSixteenCalls := by
  intro s empty
  constructor
  · intro is noRet few
    obtain ⟨t, ht, depth, quiet⟩ := runInstrs_depth is s noRet (by omega)
    refine ⟨t, ht, by omega, quiet, fun sixteen nnn => ?_⟩
    obtain ⟨u, hu, record, -, frame⟩ := callOnFullStackFaults t nnn (by omega)
    exact ⟨u, hu, by rw [frame.sp id]; omega, record⟩
  · obtain ⟨u, hu, record, -, frame⟩ := retOnEmptyStackFaults s empty
    exact ⟨u, hu, by rw [frame.sp id, empty], record⟩

end Sys2Proof.Machine
end

section
/-! No program reads BEEP, DIRTY or ST (spec/10_state.md rules R44, R54): every operation commutes with putting other
values into the three, so a cycle from a state with other values in them ends in one that differs in them alone. -/

namespace Sys2Proof.Machine

/-- The state with other values in BEEP, DIRTY and ST. -/
def State.relatch (beep dirty : Bool) (st : Byte) (s : State) : State :=
  { s with beep := beep, dirty := dirty, st := st }

/-- u differs from s in BEEP, DIRTY and ST at most. -/
def SameView (s u : State) : Prop := ∃ beep dirty st, u = s.relatch beep dirty st

theorem SameView.restore {t u : State} (h : SameView t u) :
    { u with beep := t.beep, dirty := t.dirty, st := t.st } = t := by
  obtain ⟨beep, dirty, st, rfl⟩ := h
  rfl

section

variable (b d : Bool) (w : Byte) (s : State)

/-! What a program reads. -/

@[simp] theorem State.relatch_index : (s.relatch b d w).index = s.index := rfl

@[simp] theorem State.relatch_draws : (s.relatch b d w).draws = s.draws := rfl

theorem memRead_relatch (a : Nat) : memRead (s.relatch b d w) a = memRead s a := rfl

theorem fetchWord_relatch : fetchWord (s.relatch b d w) = fetchWord s := rfl

/-! The operations that branch or loop; a straight update commutes by definition. -/

theorem skipIf_relatch (c : Bool) : skipIf c (s.relatch b d w) = (skipIf c s).relatch b d w := by
  cases c <;> rfl

theorem writeRf_relatch (x : Reg) (r : Byte) (f : Bool) :
    writeRf x r f (s.relatch b d w) = (writeRf x r f s).relatch b d w := by
  unfold writeRf
  rw [apply_ite (State.relatch b d w)]
  rfl

theorem setIndexIf_relatch (c : Bool) (i : Word) :
    setIndexIf c i (s.relatch b d w) = (setIndexIf c i s).relatch b d w := by
  cases c <;> rfl

theorem memWrite_relatch (a : Nat) (v : Byte) :
    memWrite (s.relatch b d w) a v = (memWrite s a v).map (State.relatch b d w) := by
  unfold memWrite
  split <;> rfl

theorem writeBytes_relatch (base : Nat) (bs : List Byte) :
    writeBytes base bs (s.relatch b d w) = (writeBytes base bs s).map (State.relatch b d w) := by
  induction bs generalizing base s with
  | nil => rfl
  | cons v bs ih =>
    simp only [writeBytes, memWrite_relatch]
    cases memWrite s base v with
    | error f => rfl
    | ok t => exact ih t (base + 1)

theorem loadRegs_relatch (base count : Nat) :
    loadRegs base count (s.relatch b d w) = (loadRegs base count s).map (State.relatch b d w) := by
  induction count with
  | zero => rfl
  | succ k ih =>
    simp only [loadRegs, ih]
    cases loadRegs base k s with
    | error f => rfl
    | ok t =>
      simp only [Except.map, memRead_relatch]
      cases memRead t (base + k) <;> rfl

theorem drawBit_relatch (x0 y0 : Byte) (row : Nat) (v : Byte) (bit : Nat) :
    drawBit x0 y0 row v bit (s.relatch b d w) = (drawBit x0 y0 row v bit s).relatch b d w := by
  have sameCell : ∀ x y, (s.relatch b d w).getCell x y = s.getCell x y := fun _ _ => rfl
  simp only [drawBit, sameCell]
  split
  · split <;> rfl
  · rfl

theorem drawBits_relatch (x0 y0 : Byte) (row : Nat) (v : Byte) (k : Nat) :
    drawBits x0 y0 row v k (s.relatch b d w) = (drawBits x0 y0 row v k s).relatch b d w := by
  induction k with
  | zero => rfl
  | succ k ih => simp only [drawBits, ih, drawBit_relatch]

theorem drawRows_relatch (x0 y0 : Byte) (base k : Nat) :
    drawRows x0 y0 base k (s.relatch b d w) = (drawRows x0 y0 base k s).map (State.relatch b d w) := by
  induction k with
  | zero => rfl
  | succ k ih =>
    simp only [drawRows, ih]
    cases drawRows x0 y0 base k s with
    | error f => rfl
    | ok t =>
      simp only [Except.map, memRead_relatch]
      cases memRead t (base + k) with
      | error f => rfl
      | ok v => simp only [drawBits_relatch]

theorem scrambleBytes_relatch (n base count : Nat) :
    scrambleBytes n base count (s.relatch b d w) = (scrambleBytes n base count s).relatch b d w := by
  induction count with
  | zero => rfl
  | succ k ih =>
    simp only [scrambleBytes, ih]
    split <;> rfl

theorem scrambleRegs_relatch (n count : Nat) :
    scrambleRegs n count (s.relatch b d w) = (scrambleRegs n count s).relatch b d w := by
  induction count with
  | zero => rfl
  | succ k ih =>
    simp only [scrambleRegs, ih]
    rfl

theorem scrambleBcd_relatch : scrambleBcd (s.relatch b d w) = (scrambleBcd s).relatch b d w := by
  simp only [scrambleBcd, State.relatch_draws, State.relatch_index, scrambleBytes_relatch]
  rfl

theorem scrambleDump_relatch (count : Nat) :
    scrambleDump count (s.relatch b d w) = (scrambleDump count s).relatch b d w := by
  simp only [scrambleDump, State.relatch_draws, State.relatch_index, scrambleBytes_relatch]
  rfl

theorem scrambleLoad_relatch (count : Nat) :
    scrambleLoad count (s.relatch b d w) = (scrambleLoad count s).relatch b d w := by
  simp only [scrambleLoad, State.relatch_draws, scrambleRegs_relatch]
  rfl

end

/-! The instructions. -/

/-- i does the same to both states, but for BEEP, DIRTY and ST. -/
def Blind (i : Instr) (s u : State) : Prop :=
  ∃ t t', exec i s = .next t ∧ exec i u = .next t' ∧ SameView t t'

section

variable (b d : Bool) (w : Byte) (s : State)

theorem blind_ret : Blind .ret s (s.relatch b d w) := by
  by_cases empty : s.sp.val = 0
  · exact ⟨_, _, exec_ret_empty empty, exec_ret_empty (s := s.relatch b d w) empty, b, d, w, rfl⟩
  · exact ⟨_, _, exec_ret_nonempty empty, exec_ret_nonempty (s := s.relatch b d w) empty, b, d, w, rfl⟩

theorem blind_call (nnn : Addr12) : Blind (.call nnn) s (s.relatch b d w) := by
  by_cases room : s.sp.val < 16
  · exact ⟨_, _, exec_call_room nnn room, exec_call_room nnn (s := s.relatch b d w) room, b, d, w, rfl⟩
  · have full : s.sp.val = 16 := by omega
    exact ⟨_, _, exec_call_full nnn full, exec_call_full nnn (s := s.relatch b d w) full, b, d, w, rfl⟩

theorem blind_skp (x : Reg) : Blind (.skp x) s (s.relatch b d w) := by
  by_cases key : (s.getV x).toNat < 16
  · exact ⟨_, _, exec_skp_key (k := ⟨_, key⟩) rfl, exec_skp_key (k := ⟨_, key⟩) rfl, b, d, w,
      skipIf_relatch b d w s _⟩
  · have above : 15 < (s.getV x).toNat := by omega
    exact ⟨_, _, exec_skp_above above, exec_skp_above (s := s.relatch b d w) above, b, d, w, rfl⟩

theorem blind_sknp (x : Reg) : Blind (.sknp x) s (s.relatch b d w) := by
  by_cases key : (s.getV x).toNat < 16
  · exact ⟨_, _, exec_sknp_key (k := ⟨_, key⟩) rfl, exec_sknp_key (k := ⟨_, key⟩) rfl, b, d, w,
      skipIf_relatch b d w s _⟩
  · have above : 15 < (s.getV x).toNat := by omega
    exact ⟨_, _, exec_sknp_above above, exec_sknp_above (s := s.relatch b d w) above, b, d, w, rfl⟩

theorem blind_ldK (x : Reg) : Blind (.ldK x) s (s.relatch b d w) := by
  cases key : lowestKeyDown s with
  | none => exact ⟨_, _, exec_ldK_none x key, exec_ldK_none x (s := s.relatch b d w) key, b, d, w, rfl⟩
  | some k => exact ⟨_, _, exec_ldK_down x key, exec_ldK_down x (s := s.relatch b d w) key, b, d, w, rfl⟩

theorem blind_drw (x y : Reg) (n : Nibble) : Blind (.drw x y n) s (s.relatch b d w) := by
  have rows := drawRows_relatch b d w (s.setV regF 0#8) (s.getV x) (s.getV y) s.index.toNat n.toNat
  cases run : drawRows (s.getV x) (s.getV y) s.index.toNat n.toNat (s.setV regF 0#8) with
  | ok t =>
    rw [run] at rows
    exact ⟨_, _, exec_drw_of_ok run, exec_drw_of_ok (s := s.relatch b d w) rows, b, true, w, rfl⟩
  | error f =>
    rw [run] at rows
    exact ⟨_, _, exec_drw_of_error run, exec_drw_of_error (s := s.relatch b d w) rows, b, _, w, rfl⟩

theorem blind_ldB (x : Reg) : Blind (.ldB x) s (s.relatch b d w) := by
  have block := writeBytes_relatch b d w s s.index.toNat (bcdDigits (s.getV x))
  cases run : writeBytes s.index.toNat (bcdDigits (s.getV x)) s with
  | ok t =>
    rw [run] at block
    exact ⟨_, _, exec_ldB_of_ok run, exec_ldB_of_ok (s := s.relatch b d w) block, b, d, w, rfl⟩
  | error f =>
    rw [run] at block
    refine ⟨_, _, exec_ldB_of_error run, exec_ldB_of_error (s := s.relatch b d w) block, b, d, w, ?_⟩
    rw [scrambleBcd_relatch]
    rfl

theorem blind_ldMemI (x : Reg) : Blind (.ldMemI x) s (s.relatch b d w) := by
  have block := writeBytes_relatch b d w s s.index.toNat (regBlock s x)
  cases run : writeBytes s.index.toNat (regBlock s x) s with
  | ok t =>
    rw [run] at block
    exact ⟨_, _, exec_ldMemI_of_ok run, exec_ldMemI_of_ok (s := s.relatch b d w) block, b, d, w,
      setIndexIf_relatch b d w t _ _⟩
  | error f =>
    rw [run] at block
    refine ⟨_, _, exec_ldMemI_of_error run, exec_ldMemI_of_error (s := s.relatch b d w) block, b, d, w, ?_⟩
    rw [scrambleDump_relatch]
    rfl

theorem blind_ldRegI (x : Reg) : Blind (.ldRegI x) s (s.relatch b d w) := by
  have block := loadRegs_relatch b d w s s.index.toNat (regCount x)
  cases run : loadRegs s.index.toNat (regCount x) s with
  | ok t =>
    rw [run] at block
    exact ⟨_, _, exec_ldRegI_of_ok run, exec_ldRegI_of_ok (s := s.relatch b d w) block, b, d, w,
      setIndexIf_relatch b d w t _ _⟩
  | error f =>
    rw [run] at block
    refine ⟨_, _, exec_ldRegI_of_error run, exec_ldRegI_of_error (s := s.relatch b d w) block, b, d, w, ?_⟩
    rw [scrambleLoad_relatch]
    rfl

/-- Every instruction is blind to the three: CLS and DRW write DIRTY and LD ST writes ST, to the same value in both. -/
theorem exec_blind (i : Instr) : Blind i s (s.relatch b d w) := by
  cases i
  case ret => exact blind_ret b d w s
  case call nnn => exact blind_call b d w s nnn
  case skp x => exact blind_skp b d w s x
  case sknp x => exact blind_sknp b d w s x
  case ldK x => exact blind_ldK b d w s x
  case drw x y n => exact blind_drw b d w s x y n
  case ldB x => exact blind_ldB b d w s x
  case ldMemI x => exact blind_ldMemI b d w s x
  case ldRegI x => exact blind_ldRegI b d w s x
  case cls => exact ⟨_, _, rfl, rfl, b, true, w, rfl⟩
  case ldSt x => exact ⟨_, _, rfl, rfl, b, d, s.getV x, rfl⟩
  case seImm | sneImm | seReg | sneReg => exact ⟨_, _, rfl, rfl, b, d, w, skipIf_relatch b d w s _⟩
  case addReg | sub | shr | subn | shl => exact ⟨_, _, rfl, rfl, b, d, w, writeRf_relatch b d w s _ _ _⟩
  all_goals exact ⟨_, _, rfl, rfl, b, d, w, rfl⟩

/-- The same of a whole cycle: fetch and decode do not read the three either. -/
theorem step_blind : ∃ t t', step s = .next t ∧ step (s.relatch b d w) = .next t' ∧ SameView t t' := by
  have fetched := fetchWord_relatch b d w s
  cases hw : fetchWord s with
  | error f => exact ⟨_, _, step_of_fetch_fault hw, step_of_fetch_fault (fetched.trans hw), b, d, w, rfl⟩
  | ok word =>
    cases hi : decode word with
    | error e => exact ⟨_, _, step_of_unknown hw hi, step_of_unknown (fetched.trans hw) hi, b, d, w, rfl⟩
    | ok i =>
      obtain ⟨t, t', ht, ht', same⟩ := exec_blind b d w (advancePc s) i
      exact ⟨t, t', (step_of_decoded hw hi).trans ht, (step_of_decoded (fetched.trans hw) hi).trans ht', same⟩

end

/-- Settles O59: the second state is the first relatched, and `step_blind` puts the two cycles side by side. -/
theorem programsCannotReadLatchesOrSt : Obligations.ProgramsCannotReadLatchesOrSt := by
  intro s t beep dirty st ht
  obtain ⟨t', u, ht', hu, same⟩ := step_blind beep dirty st s
  obtain rfl := next_unique ht ht'
  exact ⟨u, hu, same.restore⟩

end Sys2Proof.Machine
end
